-- ==== Sys2Proof/Word.lean ====
section
/-! DEFINITION. The word types of the β: bytes, words and register numbers. -/

namespace Sys2Proof

/-- A byte of memory: 8 bits (rule R51). -/
abbrev Byte := BitVec 8

/-- A register, the PC, an instruction or a memory word: 32 bits (rules R21, R24, R51, R80). -/
abbrev Word := BitVec 32

/-- A register number 0 to 31 (rules R21, R83: all 32 values are legal in every field). -/
abbrev Reg := Fin 32

end Sys2Proof
end

