-- ==== Sys2Proof/Config.lean ====
section
/-! DEFINITION. What an implementation fixes: the parameters of rule R7 as plain data, and the free values, which
have no body. The `Platform` a machine is built with stands in its state (log entry 4). -/

namespace Sys2Proof

/-- The four optional opcodes (rule R9). -/
inductive OptionalOpcode
  | mul
  | div
  | mulc
  | divc
  deriving DecidableEq, Repr

/-- `BYTE_ORDER` (rules R7, R52). -/
inductive ByteOrder
  | littleEndian
  | bigEndian
  deriving DecidableEq, Repr

/-- `MISALIGNED_DATA` (rules R7, R57): the two values the spec names. -/
inductive MisalignedData
  | maskLowTwoBits
  | refuse
  deriving DecidableEq, Repr

/-- `DIV_BY_ZERO` (rules R7, R119): the spec's default `refuse`, which `defaultPlatform` and `resetPlatform` have,
and, for an implementation known to go on, a quotient that nothing constrains (DESIGN CHOICE, log entry 9). -/
inductive DivByZero
  | freeQuotient
  | refuse
  deriving DecidableEq, Repr

/-- `DIV_FN` (rules R7, R119): the candidate readings the rule names, and a function of the two operands of which
nothing else is known. -/
inductive DivReading
  | signedTruncating
  | signedFlooring
  | unsigned
  | uninterpreted
  deriving DecidableEq, Repr

/-- `NONCANONICAL_FIELDS` (rules R7, R91). -/
inductive NoncanonicalFields
  | ignore
  | refuse
  deriving DecidableEq, Repr

/-- `SUPERVISOR_FAULT` (rules R7, R293): the one value the spec names, which ends the run in a fault state. The model of a
particular implementation adds its own. -/
inductive SupervisorFault
  | fault
  deriving DecidableEq, Repr

/-- `PRIV_SEMANTICS` (rules R7, R231): the one value the spec names. "A model for a particular platform replaces the parameter
by that platform's definitions", of which the spec gives none. -/
inductive PrivSemantics
  | refuse
  deriving DecidableEq, Repr

/-- A stretch of byte addresses that hold memory, both ends included (rule R68). -/
structure Region where
  first : Word
  last : Word
  deriving DecidableEq, Repr

/-- The parameters of rule R7, but for `END_OF_RUN`, on which no step depends and which Safety.lean takes as an argument. -/
structure Platform where
  /-- `IMPL_OPTIONAL`: the optional opcodes that are provided. -/
  implOptional : List OptionalOpcode
  /-- `VEC_ILLOP`: the vector of the illegal instruction exception. -/
  vecIllop : Word
  /-- `IRQ_KINDS` and `VEC_IRQ`: kind `k` exists when `k` is below the length; the entry is its vector. -/
  irqVectors : List Word
  /-- `SUPERVISOR_FAULT`. -/
  supervisorFault : SupervisorFault
  /-- `PRIV_SEMANTICS`. -/
  privSemantics : PrivSemantics
  /-- `MISALIGNED_DATA`. -/
  misalignedData : MisalignedData
  /-- `BYTE_ORDER`. -/
  byteOrder : ByteOrder
  /-- `CMP_SIGNED`. -/
  cmpSigned : Bool
  /-- `DIV_FN`. -/
  divReading : DivReading
  /-- `DIV_BY_ZERO`. -/
  divByZero : DivByZero
  /-- `MEM_REGION`. -/
  memRegion : List Region
  /-- `NONCANONICAL_FIELDS`. -/
  noncanonicalFields : NoncanonicalFields
  deriving DecidableEq, Repr

/-- FREE VALUE (log entry 9): the quotient of a dividend by zero on a platform with `DivByZero.freeQuotient`, of which the spec
states nothing (rule R119). -/
opaque Config.quotientByZero : Word → Word

/-- FREE VALUE (log entry 10): `DIV_FN` where the implementation's reading is unknown; "the result depends on the
two operand words alone" (rule R119). -/
opaque Config.uninterpretedQuotient : Word → Word → Word

/-- FREE VALUE (log entry 18): what a register holds after reset is asserted on a running machine (rules R321,
R322), from the number of the reset and the register's number. -/
opaque Config.registerAfterReset : Nat → Nat → Word

end Sys2Proof
end

