-- ==== Sys2Proof/Syntax.lean ====
section
/-! DEFINITION. The instructions of the β, one constructor for each row of spec/opcode_table.json, with the operands
in the order of the usage lines (rules R86, R93). A literal is the integer an assembly program writes; its range is
the check of WellFormed.lean (rule R97). -/

namespace Sys2Proof

/-- Register 31, which always reads as zero (rule R22). -/
abbrev r31 : Reg := 31
/-- XP, the exception pointer, register 30 (rule R22). -/
abbrev xp : Reg := 30
/-- SP, the stack pointer, register 29 (rule R22). -/
abbrev sp : Reg := 29
/-- LP, the linkage pointer, register 28 (rule R22). -/
abbrev lp : Reg := 28
/-- BP, the base of frame pointer, register 27 (rule R22). -/
abbrev bp : Reg := 27

/-- The 34 instructions and the privileged class (rules R84 to R89). -/
inductive Instr
  | add (ra rb rc : Reg)
  | addc (ra : Reg) (lit : Int) (rc : Reg)
  | and (ra rb rc : Reg)
  | andc (ra : Reg) (lit : Int) (rc : Reg)
  | beq (ra : Reg) (lit : Int) (rc : Reg)
  | bne (ra : Reg) (lit : Int) (rc : Reg)
  | cmpeq (ra rb rc : Reg)
  | cmpeqc (ra : Reg) (lit : Int) (rc : Reg)
  | cmple (ra rb rc : Reg)
  | cmplec (ra : Reg) (lit : Int) (rc : Reg)
  | cmplt (ra rb rc : Reg)
  | cmpltc (ra : Reg) (lit : Int) (rc : Reg)
  | div (ra rb rc : Reg)
  | divc (ra : Reg) (lit : Int) (rc : Reg)
  | jmp (ra rc : Reg)
  | ld (ra : Reg) (lit : Int) (rc : Reg)
  | ldr (lit : Int) (rc : Reg)
  | mul (ra rb rc : Reg)
  | mulc (ra : Reg) (lit : Int) (rc : Reg)
  | or (ra rb rc : Reg)
  | orc (ra : Reg) (lit : Int) (rc : Reg)
  | shl (ra rb rc : Reg)
  | shlc (ra : Reg) (lit : Int) (rc : Reg)
  | shr (ra rb rc : Reg)
  | shrc (ra : Reg) (lit : Int) (rc : Reg)
  | sra (ra rb rc : Reg)
  | srac (ra : Reg) (lit : Int) (rc : Reg)
  | st (rc : Reg) (lit : Int) (ra : Reg)
  | sub (ra rb rc : Reg)
  | subc (ra : Reg) (lit : Int) (rc : Reg)
  | xor (ra rb rc : Reg)
  | xorc (ra : Reg) (lit : Int) (rc : Reg)
  | xnor (ra rb rc : Reg)
  | xnorc (ra : Reg) (lit : Int) (rc : Reg)
  | privileged (form : BitVec 26)
  deriving DecidableEq, Repr

end Sys2Proof
end

