-- ==== Sys2Proof/WellFormed.lean ====
section
/-! DEFINITION. Well-formedness: which instructions an assembly program may write (rule R97) and which platforms meet
the constraints of rule R8. -/

namespace Sys2Proof

/-- "a literal operand [is] an integer in -32768 to 32767" (rule R97). -/
def fitsLiteral (lit : Int) : Bool :=
  decide (-32768 ≤ lit) && decide (lit ≤ 32767)

/-- The literal operand of an instruction that has one. -/
def Instr.literal? : Instr → Option Int
  | .add _ _ _ => none
  | .addc _ lit _ => some lit
  | .and _ _ _ => none
  | .andc _ lit _ => some lit
  | .beq _ lit _ => some lit
  | .bne _ lit _ => some lit
  | .cmpeq _ _ _ => none
  | .cmpeqc _ lit _ => some lit
  | .cmple _ _ _ => none
  | .cmplec _ lit _ => some lit
  | .cmplt _ _ _ => none
  | .cmpltc _ lit _ => some lit
  | .div _ _ _ => none
  | .divc _ lit _ => some lit
  | .jmp _ _ => none
  | .ld _ lit _ => some lit
  | .ldr lit _ => some lit
  | .mul _ _ _ => none
  | .mulc _ lit _ => some lit
  | .or _ _ _ => none
  | .orc _ lit _ => some lit
  | .shl _ _ _ => none
  | .shlc _ lit _ => some lit
  | .shr _ _ _ => none
  | .shrc _ lit _ => some lit
  | .sra _ _ _ => none
  | .srac _ lit _ => some lit
  | .st _ lit _ => some lit
  | .sub _ _ _ => none
  | .subc _ lit _ => some lit
  | .xor _ _ _ => none
  | .xorc _ lit _ => some lit
  | .xnor _ _ _ => none
  | .xnorc _ lit _ => some lit
  | .privileged _ => none

/-- An instruction is well formed when its literal, if it has one, fits 16 signed bits (rules R88, R97). -/
def Instr.wf (i : Instr) : Bool :=
  match i.literal? with
  | some lit => fitsLiteral lit
  | none => true

/-- "Every exception vector is a multiple of 4 and less than 2^31" (rule R8). -/
def vectorWf (v : Word) : Bool :=
  decide (v.toNat % 4 = 0) && decide (v.toNat < 2 ^ 31)

/-- The constraints of rule R8 on the parameters. -/
def Platform.wf (p : Platform) : Bool :=
  vectorWf p.vecIllop && p.irqVectors.all vectorWf

end Sys2Proof
end

