-- ==== Sys2Proof/Decode.lean ====
section
/-! DEFINITION. Decoding and encoding (rules R80 to R91): field extraction, the decoder, which is total on words and on
bytes and rejects by name, and the encoder. -/

namespace Sys2Proof

/-! ### Bytes and words (rule R52) -/

/-- The word whose bytes, from its address upward, are `b0` to `b3`. -/
def wordOfBytes (o : ByteOrder) (b0 b1 b2 b3 : Byte) : Word :=
  match o with
  | .littleEndian => b3 ++ b2 ++ b1 ++ b0
  | .bigEndian => b0 ++ b1 ++ b2 ++ b3

/-- The byte of `w` stored `k` bytes above its address, `k` from 0 to 3. -/
def byteOfWord (o : ByteOrder) (w : Word) (k : Nat) : Byte :=
  match o with
  | .littleEndian => w.extractLsb' (8 * k) 8
  | .bigEndian => w.extractLsb' (8 * (3 - k)) 8

/-! ### Fields (rule R83) -/

/-- `w[31:26]`. -/
def opcodeField (w : Word) : BitVec 6 := w.extractLsb' 26 6
/-- `w[25:21]`. -/
def rcField (w : Word) : Reg := (w.extractLsb' 21 5).toFin
/-- `w[20:16]`. -/
def raField (w : Word) : Reg := (w.extractLsb' 16 5).toFin
/-- `w[15:11]`. -/
def rbField (w : Word) : Reg := (w.extractLsb' 11 5).toFin
/-- `w[15:0]` as the integer it stands for in two's complement (rules R82, R88). -/
def litField (w : Word) : Int := (w.extractLsb' 0 16).toInt
/-- `w[25:0]`, the bits of a privileged word without architected layout (rule R89). -/
def formField (w : Word) : BitVec 26 := w.extractLsb' 0 26

/-! ### The decoder -/

/-- Why bits are no instruction. -/
inductive DecodeError
  /-- The opcode is one of the 29 unassigned values (rule R90): an illegal instruction. -/
  | illegalOpcode (opcode : BitVec 6)
  /-- Fewer than four bytes are left (rule R80: every instruction is 32 bits long). -/
  | truncated
  deriving DecidableEq, Repr

/-- The instruction a word is: "`decode(w)` looks at `w[31:26]` only" and takes the fields of rule R83 (rules R84 to
R91). Whether an optional opcode is provided is checked by its meaning (log entry 7), non-canonical fields by
`nextEvent` (rule R91). -/
def decode (w : Word) : Except DecodeError Instr :=
  match opcodeField w with
  | 0x00#6 => .ok (.privileged (formField w))
  | 0x18#6 => .ok (.ld (raField w) (litField w) (rcField w))
  | 0x19#6 => .ok (.st (rcField w) (litField w) (raField w))
  | 0x1B#6 => .ok (.jmp (raField w) (rcField w))
  | 0x1C#6 => .ok (.beq (raField w) (litField w) (rcField w))
  | 0x1D#6 => .ok (.bne (raField w) (litField w) (rcField w))
  | 0x1F#6 => .ok (.ldr (litField w) (rcField w))
  | 0x20#6 => .ok (.add (raField w) (rbField w) (rcField w))
  | 0x21#6 => .ok (.sub (raField w) (rbField w) (rcField w))
  | 0x22#6 => .ok (.mul (raField w) (rbField w) (rcField w))
  | 0x23#6 => .ok (.div (raField w) (rbField w) (rcField w))
  | 0x24#6 => .ok (.cmpeq (raField w) (rbField w) (rcField w))
  | 0x25#6 => .ok (.cmplt (raField w) (rbField w) (rcField w))
  | 0x26#6 => .ok (.cmple (raField w) (rbField w) (rcField w))
  | 0x28#6 => .ok (.and (raField w) (rbField w) (rcField w))
  | 0x29#6 => .ok (.or (raField w) (rbField w) (rcField w))
  | 0x2A#6 => .ok (.xor (raField w) (rbField w) (rcField w))
  | 0x2B#6 => .ok (.xnor (raField w) (rbField w) (rcField w))
  | 0x2C#6 => .ok (.shl (raField w) (rbField w) (rcField w))
  | 0x2D#6 => .ok (.shr (raField w) (rbField w) (rcField w))
  | 0x2E#6 => .ok (.sra (raField w) (rbField w) (rcField w))
  | 0x30#6 => .ok (.addc (raField w) (litField w) (rcField w))
  | 0x31#6 => .ok (.subc (raField w) (litField w) (rcField w))
  | 0x32#6 => .ok (.mulc (raField w) (litField w) (rcField w))
  | 0x33#6 => .ok (.divc (raField w) (litField w) (rcField w))
  | 0x34#6 => .ok (.cmpeqc (raField w) (litField w) (rcField w))
  | 0x35#6 => .ok (.cmpltc (raField w) (litField w) (rcField w))
  | 0x36#6 => .ok (.cmplec (raField w) (litField w) (rcField w))
  | 0x38#6 => .ok (.andc (raField w) (litField w) (rcField w))
  | 0x39#6 => .ok (.orc (raField w) (litField w) (rcField w))
  | 0x3A#6 => .ok (.xorc (raField w) (litField w) (rcField w))
  | 0x3B#6 => .ok (.xnorc (raField w) (litField w) (rcField w))
  | 0x3C#6 => .ok (.shlc (raField w) (litField w) (rcField w))
  | 0x3D#6 => .ok (.shrc (raField w) (litField w) (rcField w))
  | 0x3E#6 => .ok (.srac (raField w) (litField w) (rcField w))
  | op => .error (.illegalOpcode op)

/-- Decode bytes as they lie in memory, lowest address first; the bytes after the instruction are handed back. -/
def decodeBytes (o : ByteOrder) (bs : List Byte) : Except DecodeError (Instr × List Byte) :=
  match bs with
  | b0 :: b1 :: b2 :: b3 :: rest => (decode (wordOfBytes o b0 b1 b2 b3)).map (·, rest)
  | _ => .error .truncated

/-! ### The unassigned opcodes (rule R90) -/

/-- The 29 unassigned opcodes: 0x01 to 0x17, 0x1A, 0x1E, 0x27, 0x2F, 0x37 and 0x3F (rule R90). -/
def unassignedOpcodes : List (BitVec 6) :=
  (List.range 23).map (fun k => BitVec.ofNat 6 (k + 1)) ++ [0x1A#6, 0x1E#6, 0x27#6, 0x2F#6, 0x37#6, 0x3F#6]

/-! ### The encoder -/

/-- The Without Literal format (rule R81), unused bits zero (rule R91). -/
def encodeOperate (op : BitVec 6) (rc ra rb : Reg) : Word :=
  op ++ BitVec.ofFin (w := 5) rc ++ BitVec.ofFin (w := 5) ra ++ BitVec.ofFin (w := 5) rb ++ 0#11

/-- The With Literal format (rule R82). -/
def encodeLiteral (op : BitVec 6) (rc ra : Reg) (lit : Int) : Word :=
  op ++ BitVec.ofFin (w := 5) rc ++ BitVec.ofFin (w := 5) ra ++ BitVec.ofInt 16 lit

/-- The canonical word of an instruction (rules R81 to R86, R91). It stands for the instruction only when the
instruction is well formed: see `assemble`. -/
def encode : Instr → Word
  | .add ra rb rc => encodeOperate 0x20#6 rc ra rb
  | .addc ra lit rc => encodeLiteral 0x30#6 rc ra lit
  | .and ra rb rc => encodeOperate 0x28#6 rc ra rb
  | .andc ra lit rc => encodeLiteral 0x38#6 rc ra lit
  | .beq ra lit rc => encodeLiteral 0x1C#6 rc ra lit
  | .bne ra lit rc => encodeLiteral 0x1D#6 rc ra lit
  | .cmpeq ra rb rc => encodeOperate 0x24#6 rc ra rb
  | .cmpeqc ra lit rc => encodeLiteral 0x34#6 rc ra lit
  | .cmple ra rb rc => encodeOperate 0x26#6 rc ra rb
  | .cmplec ra lit rc => encodeLiteral 0x36#6 rc ra lit
  | .cmplt ra rb rc => encodeOperate 0x25#6 rc ra rb
  | .cmpltc ra lit rc => encodeLiteral 0x35#6 rc ra lit
  | .div ra rb rc => encodeOperate 0x23#6 rc ra rb
  | .divc ra lit rc => encodeLiteral 0x33#6 rc ra lit
  | .jmp ra rc => encodeLiteral 0x1B#6 rc ra 0
  | .ld ra lit rc => encodeLiteral 0x18#6 rc ra lit
  | .ldr lit rc => encodeLiteral 0x1F#6 rc r31 lit
  | .mul ra rb rc => encodeOperate 0x22#6 rc ra rb
  | .mulc ra lit rc => encodeLiteral 0x32#6 rc ra lit
  | .or ra rb rc => encodeOperate 0x29#6 rc ra rb
  | .orc ra lit rc => encodeLiteral 0x39#6 rc ra lit
  | .shl ra rb rc => encodeOperate 0x2C#6 rc ra rb
  | .shlc ra lit rc => encodeLiteral 0x3C#6 rc ra lit
  | .shr ra rb rc => encodeOperate 0x2D#6 rc ra rb
  | .shrc ra lit rc => encodeLiteral 0x3D#6 rc ra lit
  | .sra ra rb rc => encodeOperate 0x2E#6 rc ra rb
  | .srac ra lit rc => encodeLiteral 0x3E#6 rc ra lit
  | .st rc lit ra => encodeLiteral 0x19#6 rc ra lit
  | .sub ra rb rc => encodeOperate 0x21#6 rc ra rb
  | .subc ra lit rc => encodeLiteral 0x31#6 rc ra lit
  | .xor ra rb rc => encodeOperate 0x2A#6 rc ra rb
  | .xorc ra lit rc => encodeLiteral 0x3A#6 rc ra lit
  | .xnor ra rb rc => encodeOperate 0x2B#6 rc ra rb
  | .xnorc ra lit rc => encodeLiteral 0x3B#6 rc ra lit
  | .privileged form => 0x00#6 ++ form

/-- The assembler's last step: the word of a well-formed instruction, and none for an ill-formed one ("must not
truncate silently", rule R97). -/
def assemble (i : Instr) : Option Word :=
  if i.wf then some (encode i) else none

/-- The instruction the decoder reads from an instruction whose bits are `w`, numbered from the least significant
bit of the word, with every bit from `nbits` up zero. The bytes are laid out in the spec's default byte order
(rule R52). -/
def decodeTableWord (nbits w : Nat) : Option Instr :=
  let word : Word := BitVec.ofNat 32 (w % 2 ^ nbits)
  let bytes := [0, 1, 2, 3].map (byteOfWord .littleEndian word)
  match decodeBytes .littleEndian bytes with
  | .ok (i, _) => some i
  | .error _ => none

end Sys2Proof
end

