-- ==== Sys2Proof/Machine/Operands.lean ====
section
/-! DEFINITION. Operand forms (rules R88, R118, R176, R194): the literal as a word, the shift counts, and the functions
of two words that the Operate and OPC classes compute, but for compares (Flags.lean) and division (Arithmetic.lean). -/

namespace Sys2Proof.Machine

/-- `sext_32(lit)` (rules R11, R88): the 32-bit two's complement of a literal. -/
def sext32 (lit : Int) : Word := BitVec.ofInt 32 lit

/-- The shift count in a register or in a sign-extended literal: bits 4:0, an unsigned number 0 to 31 (rule R176). -/
def shiftCount (v : Word) : Nat := (v.extractLsb' 0 5).toNat

/-- `a << n` (rules R11, R170). -/
def shiftLeft (a b : Word) : Word := a <<< shiftCount b

/-- `a >>u n`, zero fill (rules R11, R172). -/
def shiftRightLogical (a b : Word) : Word := a >>> shiftCount b

/-- `a >>s n`, sign fill (rules R11, R174). -/
def shiftRightArithmetic (a b : Word) : Word := a.sshiftRight (shiftCount b)

/-- `~(a ^ b)` (rule R136). -/
def xnorWord (a b : Word) : Word := ~~~ (a ^^^ b)

/-- The effective address of LD and ST: base plus byte displacement, modulo 2^32 (rules R88, R194). -/
def effectiveAddress (base : Word) (lit : Int) : Word := base + sext32 lit

end Sys2Proof.Machine
end

