-- ==== Sys2Proof/Machine/Platform.lean ====
section
/-! DEFINITION. What the machine starts with: the reset PC, the values the assumption log names where the spec gives
none, and the platform of `State.reset`. -/

namespace Sys2Proof.Machine

/-- The PC after reset: the Supervisor bit set and vector 0 (rules R35, R298, R320). -/
def resetPc : Word := 0x80000000#32

/-- DESIGN CHOICE (log entry 1): what R0 to R30 hold at reset; the spec gives no value (rules R35, R38). -/
def resetRegister : Word := 0x00000000#32

/-- DESIGN CHOICE (log entry 2): what a byte of memory that nothing has written reads as; the spec gives no contents
(rules R35, R54). -/
def unlistedByte : Byte := 0x00#8

/-- The defaults of rule R7, with the customary vectors where the rule leaves the value open (PRESUMED, log entries 5
and 6). -/
def defaultPlatform : Platform where
  implOptional := [.mul, .div, .mulc, .divc]
  vecIllop := 0x00000004#32
  irqVectors := [0x00000008#32]
  supervisorFault := .fault
  privSemantics := .refuse
  misalignedData := .refuse
  byteOrder := .littleEndian
  cmpSigned := true
  divReading := .signedTruncating
  divByZero := .refuse
  memRegion := [⟨0x00000000#32, 0xFFFFFFFF#32⟩]
  noncanonicalFields := .ignore

/-- The platform of `State.reset`: the defaults of rule R7, but that `MISALIGNED_DATA` has the alternative effect rule R57
names (PRESUMED, log entry 8). -/
def resetPlatform : Platform :=
  { defaultPlatform with misalignedData := .maskLowTwoBits }

end Sys2Proof.Machine
end

