-- ==== Sys2Proof/Machine/State.lean ====
section
/-! DEFINITION. The state of the machine, the reasons a step can stop, and the state after reset. -/

namespace Sys2Proof.Machine

/-- Main memory, 2^32 bytes (rule R33): the bytes that differ from `unlistedByte`, by strictly rising address. -/
abbrev Memory := List Host.Cell

/-- What the environment does at one instruction boundary (rules R67, R287, R288, R322, R332; log entry 17). A kind of
interrupt, an element of `IRQ_KINDS` (rule R285), is its place in `Platform.irqVectors`. -/
structure EnvInput where
  /-- Kinds that become pending. -/
  raised : List Nat := []
  /-- Kinds that are withdrawn. -/
  cleared : List Nat := []
  /-- The free choice of rule R287: the pending kind to take here, if the processor may take one. -/
  take : Option Nat := none
  /-- Reset is asserted (rule R322). -/
  reset : Bool := false
  deriving DecidableEq, Repr

/-- The state of the machine (rule R20). The last three fields are the model's own (log entries 4, 17, 18). -/
structure State where
  /-- R0 to R30; R31 is not storage (rule R20). -/
  regs : Vector Word 31
  /-- The program counter; bit 31 is the Supervisor bit (rule R24). -/
  pc : Word
  /-- Main memory (rule R33). -/
  mem : Memory
  /-- The pending interrupt kinds, rising (rule R34). -/
  pending : List Nat
  /-- The implementation's parameters (rule R7); no step changes them. -/
  platform : Platform
  /-- What the environment does at the coming instruction boundaries, the next one first; nothing once empty. -/
  inputs : List EnvInput
  /-- How often reset has been asserted since power up: the index of the free values it leaves. -/
  draws : Nat
  deriving DecidableEq, Repr

/-- The ways the machine stops in a fault state. -/
inductive Fault
  /-- Raised by an illegal instruction in supervisor mode, whose effect is "implementation-defined (probably fatal)"
  (rule R293, `SUPERVISOR_FAULT = fault`). Safe: no next state is claimed. -/
  | supervisorFault
  deriving DecidableEq, Repr

/-- The ways the model gives a step no meaning. -/
inductive Refusal
  /-- Raised by no arm of `exec`: every instruction has its meaning. Safe: no next state is claimed. -/
  | notModelled (mnemonic : String)
  /-- Raised by opcode 0x00 in supervisor mode, whose "form and semantics are implementation-defined" (rule R231,
  `PRIV_SEMANTICS = refuse`). Safe: no next state is claimed. -/
  | privilegedSemantics
  /-- Raised by LD and ST at an address that is no multiple of 4, on a platform with `MISALIGNED_DATA = refuse` (rule
  R57). Safe: no next state is claimed. -/
  | misalignedData
  /-- Raised by DIV and DIVC with a zero divisor where `DIV_BY_ZERO = refuse`, the default, which gives the instruction
  "no meaning" (rules R7, R119, R299). Safe: no next state is claimed. -/
  | divisionByZero
  /-- Raised by LD, ST, LDR and the fetch outside `MEM_REGION` (rule R68). Safe: no next state is claimed. -/
  | outsideMemRegion
  /-- Raised by the fetch of a provided instruction's word whose unused bits are not canonical, only on a platform with
  `NONCANONICAL_FIELDS = refuse`, the alternative rules R7 and R91 name. Safe: no next state is claimed. -/
  | noncanonicalFields
  deriving DecidableEq, Repr

/-- The outcome of an instruction or a step. -/
abbrev StepOutcome := Host.Outcome State Fault Refusal

/-- The machine right after power up (rules R35, R298, R320); the values the spec does not give are those of log entries
1 to 6, 8, 17 and 18. -/
def State.reset : State where
  regs := Vector.replicate 31 resetRegister
  pc := resetPc
  mem := []
  pending := []
  platform := resetPlatform
  inputs := []
  draws := 0

end Sys2Proof.Machine
end

