-- ==== Sys2Proof/Machine/Ops.lean ====
section
/-! DEFINITION. The named operations over memory, registers and the PC, taking an exception and returning from one, and
what the environment does between two instructions. -/

namespace Sys2Proof.Machine

/-! ### Memory (rules R33, R52 to R55, R68) -/

/-- The byte at an address. -/
def readByte (m : Memory) (a : Nat) : Byte :=
  match m with
  | [] => unlistedByte
  | (x, b) :: rest => if a = x then b else readByte rest a

/-- The cell of a byte in front of the cells of higher addresses: none for what an unlisted address reads as. -/
def consCell (a : Nat) (b : Byte) (m : Memory) : Memory :=
  if b = unlistedByte then m else (a, b) :: m

/-- Write one byte, keeping the canonical form. -/
def writeByte (m : Memory) (a : Nat) (b : Byte) : Memory :=
  match m with
  | [] => consCell a b []
  | (x, c) :: rest =>
    if a < x then consCell a b ((x, c) :: rest)
    else if a = x then consCell a b rest
    else (x, c) :: writeByte rest a b

/-- Addresses rise strictly from `low` on, stay below 2^32, and no cell holds what an unlisted address reads as. -/
def canonicalFrom (low : Nat) : Memory → Bool
  | [] => true
  | (x, b) :: rest =>
    decide (low ≤ x) && decide (x < 2 ^ 32) && decide (b ≠ unlistedByte) && canonicalFrom (x + 1) rest

/-- The canonical form of a memory. -/
def Memory.wf (m : Memory) : Bool := canonicalFrom 0 m

/-- `MemRead(addr, 4)` (rules R52, R54): the word of the four bytes from `a` upward. -/
def readWord (o : ByteOrder) (m : Memory) (a : Word) : Word :=
  wordOfBytes o (readByte m a.toNat) (readByte m (a.toNat + 1)) (readByte m (a.toNat + 2)) (readByte m (a.toNat + 3))

/-- `MemWrite(addr, 4, v)` (rules R52, R55): all four bytes from `a` upward. -/
def writeWord (o : ByteOrder) (m : Memory) (a v : Word) : Memory :=
  writeByte (writeByte (writeByte (writeByte m a.toNat (byteOfWord o v 0)) (a.toNat + 1) (byteOfWord o v 1))
    (a.toNat + 2) (byteOfWord o v 2)) (a.toNat + 3) (byteOfWord o v 3)

/-- The byte address lies in `MEM_REGION` (rule R68). -/
def byteInRegion (p : Platform) (a : Nat) : Bool :=
  p.memRegion.any fun r => decide (r.first.toNat ≤ a) && decide (a ≤ r.last.toNat)

/-- All four bytes of the word at `a` lie in `MEM_REGION` (rule R68). -/
def wordInRegion (p : Platform) (a : Word) : Bool :=
  byteInRegion p a.toNat && byteInRegion p (a.toNat + 1) && byteInRegion p (a.toNat + 2) && byteInRegion p (a.toNat + 3)

/-- `{v[31:2], 00}`: the word an address lies in. -/
def alignWord (v : Word) : Word := v.extractLsb' 2 30 ++ 0#2

/-- `addr[1:0] = 00` (rule R54). -/
def isAligned (v : Word) : Bool := v.extractLsb' 0 2 == 0#2

/-- A word address inside `MEM_REGION`, or the refusal of rule R68. -/
def regionAddress (p : Platform) (a : Word) : Except Refusal Word :=
  if wordInRegion p a then .ok a else .error .outsideMemRegion

/-- The address an LD or ST accesses for the effective address `ea`, or why it has no meaning (rules R57, R68). -/
def dataAddress (p : Platform) (ea : Word) : Except Refusal Word :=
  if isAligned ea then regionAddress p ea
  else match p.misalignedData with
    | .maskLowTwoBits => regionAddress p (alignWord ea)
    | .refuse => .error .misalignedData

/-- `MemRead` in a state. -/
def State.readWord (s : State) (a : Word) : Word := Machine.readWord s.platform.byteOrder s.mem a

/-- `MemWrite` in a state. -/
def State.writeWord (s : State) (a v : Word) : State :=
  { s with mem := Machine.writeWord s.platform.byteOrder s.mem a v }

/-! ### Registers (rule R21) -/

/-- `x[r]`: register 31 reads as zero. -/
def State.reg (s : State) (r : Reg) : Word :=
  if h : r.val < 31 then s.regs[r.val] else 0#32

/-- `x[r] <- v`: a write to register 31 is discarded. -/
def State.setReg (s : State) (r : Reg) (v : Word) : State :=
  if h : r.val < 31 then { s with regs := s.regs.set r.val v } else s

/-! ### The program counter (rules R24 to R29) -/

/-- The Supervisor bit, bit 31 of the PC (rules R24, R281). -/
def State.isSupervisor (s : State) : Bool := s.pc.getLsbD 31

/-- `pc <- v`. -/
def State.setPc (s : State) (v : Word) : State := { s with pc := v }

/-- `next_pc(p)`, the updated PC: bits 30:0 plus 4 modulo 2^31, the Supervisor bit copied (rule R26). -/
def nextPc (p : Word) : Word := p.extractLsb' 31 1 ++ (p.extractLsb' 0 31 + 4#31)

/-- `rel(p, lit)`, a PC-relative target that keeps the Supervisor bit (rule R27). -/
def relTarget (p : Word) (lit : Int) : Word :=
  p.extractLsb' 31 1 ++ (p.extractLsb' 0 31 + BitVec.ofInt 31 (4 * lit))

/-- The effective address of LDR, the Supervisor bit read as zero (rule R191). -/
def ldrAddress (npc : Word) (lit : Int) : Word :=
  0#1 ++ (npc.extractLsb' 0 31 + BitVec.ofInt 31 (4 * lit))

/-- The byte address an instruction is fetched from, `{0, pc[30:0]}` with bits 1:0 zero as they always are (rules R24,
R25, R56; log entry 24). -/
def fetchAddress (p : Word) : Word := 0#1 ++ p.extractLsb' 2 29 ++ 0#2

/-- `pc <- npc`: the one effect on the PC of every instruction that transfers no control (rule R26). -/
def State.advance (s : State) : State := s.setPc (nextPc s.pc)

/-! ### Taking an exception and returning from one (rules R28, R29, R290, R294) -/

/-- The PC an exception vector stands for: `{1, VEC[30:2], 00}` (rules R29, R290). -/
def vectorPc (vec : Word) : Word := 1#1 ++ vec.extractLsb' 2 29 ++ 0#2

/-- Entry of an exception taken in user mode: `x[30] <- next_pc(pc); pc <- {1, VEC[30:2], 00}`; nothing else changes
(rules R290, R291). -/
def takeException (vec : Word) (s : State) : State :=
  (s.setReg xp (nextPc s.pc)).setPc (vectorPc vec)

/-- `SUPERVISOR_FAULT` applies (rule R293). -/
def supervisorFaultOutcome (s : State) : StepOutcome :=
  match s.platform.supervisorFault with
  | .fault => .fault .supervisorFault

/-- `raise IllegalInstruction` (rules R231, R233, R284): the exception in user mode, `SUPERVISOR_FAULT` in supervisor mode
(rule R293). -/
def raiseIllegalInstruction (s : State) : StepOutcome :=
  if s.isSupervisor then supervisorFaultOutcome s else .next (takeException s.platform.vecIllop s)

/-- The PC that JMP, the return from an exception among its uses, makes of the PC and the target register:
`{pc[31] & t[31], t[30:2], 00}` (rules R28, R212, R294). -/
def jumpPc (p t : Word) : Word := (p.extractLsb' 31 1 &&& t.extractLsb' 31 1) ++ t.extractLsb' 2 29 ++ 0#2

/-! ### Instruction shapes (rules R36, R118, R138, R157, R177) -/

/-- Write a result and go on: `x[Rc] <- v; pc <- npc`. -/
def State.writeResult (s : State) (rc : Reg) (v : Word) : State := (s.setReg rc v).advance

/-- The Operate class: `x[Rc] <- f(x[Ra], x[Rb]); pc <- npc`, the sources read before Rc is written. -/
def operate (f : Word → Word → Word) (ra rb rc : Reg) (s : State) : StepOutcome :=
  .next (s.writeResult rc (f (s.reg ra) (s.reg rb)))

/-- The OPC class: `x[Rc] <- f(x[Ra], sext_32(lit)); pc <- npc`. -/
def operateLiteral (f : Word → Word → Word) (ra : Reg) (lit : Int) (rc : Reg) (s : State) : StepOutcome :=
  .next (s.writeResult rc (f (s.reg ra) (sext32 lit)))

/-- The optional opcode an instruction needs (rule R9). -/
def optional? : Instr → Option OptionalOpcode
  | .mul _ _ _ => some .mul
  | .div _ _ _ => some .div
  | .mulc _ _ _ => some .mulc
  | .divc _ _ _ => some .divc
  | .add _ _ _ => none
  | .addc _ _ _ => none
  | .and _ _ _ => none
  | .andc _ _ _ => none
  | .beq _ _ _ => none
  | .bne _ _ _ => none
  | .cmpeq _ _ _ => none
  | .cmpeqc _ _ _ => none
  | .cmple _ _ _ => none
  | .cmplec _ _ _ => none
  | .cmplt _ _ _ => none
  | .cmpltc _ _ _ => none
  | .jmp _ _ => none
  | .ld _ _ _ => none
  | .ldr _ _ => none
  | .or _ _ _ => none
  | .orc _ _ _ => none
  | .shl _ _ _ => none
  | .shlc _ _ _ => none
  | .shr _ _ _ => none
  | .shrc _ _ _ => none
  | .sra _ _ _ => none
  | .srac _ _ _ => none
  | .st _ _ _ => none
  | .sub _ _ _ => none
  | .subc _ _ _ => none
  | .xor _ _ _ => none
  | .xorc _ _ _ => none
  | .xnor _ _ _ => none
  | .xnorc _ _ _ => none
  | .privileged _ => none

/-- The implementation provides the instruction: it is not optional, or not omitted (rules R9, R87). -/
def provides (p : Platform) (i : Instr) : Bool :=
  match optional? i with
  | some op => p.implOptional.contains op
  | none => true

/-- An optional opcode: illegal where the implementation omits it (rules R9, R233). -/
def ifProvided (op : OptionalOpcode) (s : State) (meaning : StepOutcome) : StepOutcome :=
  if s.platform.implOptional.contains op then meaning else raiseIllegalInstruction s

/-- A control transfer with link: `x[Rc] <- npc; pc <- target` (rule R213). -/
def linkAndGo (rc : Reg) (target : Word) (s : State) : StepOutcome :=
  .next ((s.setReg rc (nextPc s.pc)).setPc target)

/-! ### Between two instructions (rules R34, R67, R286 to R289, R322) -/

/-- Put a kind into a rising list of kinds. -/
def insertKind (k : Nat) (ks : List Nat) : List Nat :=
  match ks with
  | [] => [k]
  | j :: rest => if k < j then k :: j :: rest else if k = j then j :: rest else j :: insertKind k rest

/-- A kind becomes pending; what is not in `IRQ_KINDS` is ignored (rules R34, R285). -/
def raiseKind (p : Platform) (ks : List Nat) (k : Nat) : List Nat :=
  if k < p.irqVectors.length then insertKind k ks else ks

/-- The pending set after the environment has withdrawn and raised kinds (rule R288). -/
def updatePending (p : Platform) (e : EnvInput) (ks : List Nat) : List Nat :=
  e.raised.foldl (raiseKind p) (ks.filter fun k => !e.cleared.contains k)

/-- What the environment does at this boundary. -/
def State.input (s : State) : EnvInput := s.inputs.headD {}

/-- The state after the environment has acted at this boundary: nothing but `pending` and the list of inputs changes
(rules R67, R288). -/
def State.afterEnvironment (s : State) : State :=
  { s with pending := updatePending s.platform s.input s.pending, inputs := s.inputs.tail }

/-- The vector of the interrupt that is taken: in user mode, of the chosen kind, if it is pending (rules R286, R287). -/
def interruptVector (choice : Option Nat) (s : State) : Option Word :=
  match choice with
  | some k => if !s.isSupervisor && s.pending.contains k then s.platform.irqVectors[k]? else none
  | none => none

/-- Reset asserted on a running machine (rules R320 to R322): the PC as after power up, every register a free value,
memory and the rest as they were. -/
def reassertReset (s : State) : State :=
  { s with
    pc := resetPc
    regs := Vector.ofFn fun i => Config.registerAfterReset s.draws i.val
    draws := s.draws + 1 }

/-! ### What a step does (rule R299) -/

/-- What a step is going to do. -/
inductive Event
  /-- Reset is asserted. -/
  | reset
  /-- An interrupt with this vector is taken. -/
  | interrupt (vec : Word)
  /-- The fetched word is this instruction. -/
  | instruction (i : Instr)
  /-- The fetched word is an illegal instruction. -/
  | illegal
  /-- The fetch has no meaning. -/
  | refused (r : Refusal)
  deriving DecidableEq, Repr

/-- What a fetched word leads to (rules R87, R90, R91). The word of an omitted optional opcode is illegal whatever its other
bits, so its unused fields are not looked at; the meaning of its instruction raises the exception (log entry 7). -/
def wordEvent (p : Platform) (w : Word) : Event :=
  match decode w with
  | .error _ => .illegal
  | .ok i =>
    if p.noncanonicalFields = .refuse ∧ provides p i = true ∧ encode i ≠ w then .refused .noncanonicalFields else .instruction i

/-- The fetch at the PC (rules R25, R68, R80) and what it leads to. -/
def fetchEvent (s : State) : Event :=
  match regionAddress s.platform (fetchAddress s.pc) with
  | .ok a => wordEvent s.platform (s.readWord a)
  | .error r => .refused r

/-- What the step does in the state `s` the environment has left, given its input (rules R289, R299). -/
def nextEvent (e : EnvInput) (s : State) : Event :=
  if e.reset then .reset
  else match interruptVector e.take s with
    | some vec => .interrupt vec
    | none => fetchEvent s

/-- `s` with a word where the next instruction is fetched from, and with nothing for the environment to do. -/
def placeWord (s : State) (w : Word) : State :=
  { s.writeWord (fetchAddress s.pc) w with inputs := [] }

end Sys2Proof.Machine
end

