-- ==== Sys2Proof/Machine/Arithmetic.lean ====
section
/-! DEFINITION. Arithmetic: ADD, ADDC, SUB, SUBC, MUL, MULC, DIV, DIVC (rules R110 to R120). -/

namespace Sys2Proof.Machine

/-- `DIV_FN` for a divisor that is not zero (rule R119): the low 32 bits of the quotient in the platform's reading. -/
def quotient (reading : DivReading) (a b : Word) : Word :=
  match reading with
  | .signedTruncating => BitVec.ofInt 32 (a.toInt.tdiv b.toInt)
  | .signedFlooring => BitVec.ofInt 32 (a.toInt.fdiv b.toInt)
  | .unsigned => BitVec.ofNat 32 (a.toNat / b.toNat)
  | .uninterpreted => Config.uninterpretedQuotient a b

/-- The quotient DIV and DIVC write, `DIV_BY_ZERO` for a zero divisor (rules R116, R117, R119; log entry 9). -/
def divide (p : Platform) (a b : Word) : Except Refusal Word :=
  if b = 0#32 then
    match p.divByZero with
    | .freeQuotient => .ok (Config.quotientByZero a)
    | .refuse => .error .divisionByZero
  else .ok (quotient p.divReading a b)

/-- Write a quotient and go on, or give the instruction no meaning. -/
def writeQuotient (q : Except Refusal Word) (rc : Reg) (s : State) : StepOutcome :=
  match q with
  | .ok v => .next (s.writeResult rc v)
  | .error r => .refused r

/-- ADD: `x[Rc] <- x[Ra] + x[Rb]` (rule R110). -/
def execAdd (ra rb rc : Reg) (s : State) : StepOutcome :=
  operate (· + ·) ra rb rc s

/-- ADDC: `x[Rc] <- x[Ra] + sext_32(lit)` (rule R111). -/
def execAddc (ra : Reg) (lit : Int) (rc : Reg) (s : State) : StepOutcome :=
  operateLiteral (· + ·) ra lit rc s

/-- SUB: `x[Rc] <- x[Ra] - x[Rb]` (rule R112). -/
def execSub (ra rb rc : Reg) (s : State) : StepOutcome :=
  operate (· - ·) ra rb rc s

/-- SUBC: `x[Rc] <- x[Ra] - sext_32(lit)` (rule R113). -/
def execSubc (ra : Reg) (lit : Int) (rc : Reg) (s : State) : StepOutcome :=
  operateLiteral (· - ·) ra lit rc s

/-- MUL, optional: the low 32 bits of `x[Ra] * x[Rb]` (rule R114). -/
def execMul (ra rb rc : Reg) (s : State) : StepOutcome :=
  ifProvided .mul s (operate (· * ·) ra rb rc s)

/-- MULC, optional: the low 32 bits of `x[Ra] * sext_32(lit)` (rule R115). -/
def execMulc (ra : Reg) (lit : Int) (rc : Reg) (s : State) : StepOutcome :=
  ifProvided .mulc s (operateLiteral (· * ·) ra lit rc s)

/-- DIV, optional: `x[Rc] <- DIV_FN(x[Ra], x[Rb])` (rules R116, R119). -/
def execDiv (ra rb rc : Reg) (s : State) : StepOutcome :=
  ifProvided .div s (writeQuotient (divide s.platform (s.reg ra) (s.reg rb)) rc s)

/-- DIVC, optional: `x[Rc] <- DIV_FN(x[Ra], sext_32(lit))` (rules R117, R119). -/
def execDivc (ra : Reg) (lit : Int) (rc : Reg) (s : State) : StepOutcome :=
  ifProvided .divc s (writeQuotient (divide s.platform (s.reg ra) (sext32 lit)) rc s)

end Sys2Proof.Machine
end

