-- ==== Sys2Proof/Machine/Bitwise.lean ====
section
/-! DEFINITION. Bitwise logic: AND, ANDC, OR, ORC, XOR, XORC, XNOR, XNORC (rules R130 to R138). -/

namespace Sys2Proof.Machine

/-- AND: `x[Rc] <- x[Ra] & x[Rb]` (rule R130). -/
def execAnd (ra rb rc : Reg) (s : State) : StepOutcome :=
  operate (· &&& ·) ra rb rc s

/-- ANDC: `x[Rc] <- x[Ra] & sext_32(lit)` (rule R131). -/
def execAndc (ra : Reg) (lit : Int) (rc : Reg) (s : State) : StepOutcome :=
  operateLiteral (· &&& ·) ra lit rc s

/-- OR: `x[Rc] <- x[Ra] | x[Rb]` (rule R132). -/
def execOr (ra rb rc : Reg) (s : State) : StepOutcome :=
  operate (· ||| ·) ra rb rc s

/-- ORC: `x[Rc] <- x[Ra] | sext_32(lit)` (rule R133). -/
def execOrc (ra : Reg) (lit : Int) (rc : Reg) (s : State) : StepOutcome :=
  operateLiteral (· ||| ·) ra lit rc s

/-- XOR: `x[Rc] <- x[Ra] ^ x[Rb]` (rule R134). -/
def execXor (ra rb rc : Reg) (s : State) : StepOutcome :=
  operate (· ^^^ ·) ra rb rc s

/-- XORC: `x[Rc] <- x[Ra] ^ sext_32(lit)` (rule R135). -/
def execXorc (ra : Reg) (lit : Int) (rc : Reg) (s : State) : StepOutcome :=
  operateLiteral (· ^^^ ·) ra lit rc s

/-- XNOR: `x[Rc] <- ~(x[Ra] ^ x[Rb])` (rule R136). -/
def execXnor (ra rb rc : Reg) (s : State) : StepOutcome :=
  operate xnorWord ra rb rc s

/-- XNORC: `x[Rc] <- ~(x[Ra] ^ sext_32(lit))` (rule R137). -/
def execXnorc (ra : Reg) (lit : Int) (rc : Reg) (s : State) : StepOutcome :=
  operateLiteral xnorWord ra lit rc s

end Sys2Proof.Machine
end

