-- ==== Sys2Proof/Machine/Flags.lean ====
section
/-! DEFINITION. The β has no flags (rules R30, R31): a comparison leaves 1 or 0 in a register and a branch tests a
register. Here are the relations and the tests. -/

namespace Sys2Proof.Machine

/-- "[result = 1 if true, 0 if false]" (rule R157). -/
def truthWord (b : Bool) : Word := if b then 1#32 else 0#32

/-- `Reg[Ra] = Reg[Rb]` (rule R150). -/
def equalWords (a b : Word) : Bool := a == b

/-- `Reg[Ra] < Reg[Rb]`, signed unless `CMP_SIGNED` is false (rules R152, R156). -/
def lessThan (signed : Bool) (a b : Word) : Bool :=
  if signed then decide (a.toInt < b.toInt) else decide (a.toNat < b.toNat)

/-- `Reg[Ra] ≤ Reg[Rb]`, signed unless `CMP_SIGNED` is false (rules R154, R156). -/
def lessOrEqual (signed : Bool) (a b : Word) : Bool :=
  if signed then decide (a.toInt ≤ b.toInt) else decide (a.toNat ≤ b.toNat)

/-- The test of BEQ and BNE: all 32 bits are zero (rules R210, R211). -/
def isZero (v : Word) : Bool := v == 0#32

end Sys2Proof.Machine
end

