-- ==== Sys2Proof/Machine/Compare.lean ====
section
/-! DEFINITION. Compares: CMPEQ, CMPEQC, CMPLT, CMPLTC, CMPLE, CMPLEC (rules R150 to R157). -/

namespace Sys2Proof.Machine

/-- CMPEQ: 1 if `x[Ra] = x[Rb]`, else 0 (rule R150). -/
def execCmpeq (ra rb rc : Reg) (s : State) : StepOutcome :=
  operate (fun a b => truthWord (equalWords a b)) ra rb rc s

/-- CMPEQC: 1 if `x[Ra] = sext_32(lit)`, else 0 (rule R151). -/
def execCmpeqc (ra : Reg) (lit : Int) (rc : Reg) (s : State) : StepOutcome :=
  operateLiteral (fun a b => truthWord (equalWords a b)) ra lit rc s

/-- CMPLT: 1 if `x[Ra] < x[Rb]`, else 0 (rules R152, R156). -/
def execCmplt (ra rb rc : Reg) (s : State) : StepOutcome :=
  operate (fun a b => truthWord (lessThan s.platform.cmpSigned a b)) ra rb rc s

/-- CMPLTC: 1 if `x[Ra] < lit`, else 0 (rules R153, R156). -/
def execCmpltc (ra : Reg) (lit : Int) (rc : Reg) (s : State) : StepOutcome :=
  operateLiteral (fun a b => truthWord (lessThan s.platform.cmpSigned a b)) ra lit rc s

/-- CMPLE: 1 if `x[Ra] ≤ x[Rb]`, else 0 (rules R154, R156). -/
def execCmple (ra rb rc : Reg) (s : State) : StepOutcome :=
  operate (fun a b => truthWord (lessOrEqual s.platform.cmpSigned a b)) ra rb rc s

/-- CMPLEC: 1 if `x[Ra] ≤ lit`, else 0 (rules R155, R156). -/
def execCmplec (ra : Reg) (lit : Int) (rc : Reg) (s : State) : StepOutcome :=
  operateLiteral (fun a b => truthWord (lessOrEqual s.platform.cmpSigned a b)) ra lit rc s

end Sys2Proof.Machine
end

