-- ==== Sys2Proof/Machine/ControlTransfer.lean ====
section
/-! DEFINITION. Control transfer: BEQ, BNE, JMP (rules R210 to R215). -/

namespace Sys2Proof.Machine

/-- A conditional branch with link: the target when the branch is taken, else the next instruction (rules R210,
R211, R213). -/
def branch (taken : Bool) (lit : Int) (rc : Reg) (s : State) : StepOutcome :=
  linkAndGo rc (if taken then relTarget (nextPc s.pc) lit else nextPc s.pc) s

/-- BEQ, also BF: branch if `x[Ra]` is zero, tested before Rc is written (rule R210). -/
def execBeq (ra : Reg) (lit : Int) (rc : Reg) (s : State) : StepOutcome :=
  branch (isZero (s.reg ra)) lit rc s

/-- BNE, also BT: branch if `x[Ra]` is not zero, tested before Rc is written (rule R211). -/
def execBne (ra : Reg) (lit : Int) (rc : Reg) (s : State) : StepOutcome :=
  branch (!isZero (s.reg ra)) lit rc s

/-- JMP: jump to `x[Ra]`, read before Rc is written, with the low two bits masked; the Supervisor bit can be cleared
and not set (rules R28, R212). -/
def execJmp (ra rc : Reg) (s : State) : StepOutcome :=
  linkAndGo rc (jumpPc s.pc (s.reg ra)) s

end Sys2Proof.Machine
end

