-- ==== Sys2Proof/Machine/LoadStore.lean ====
section
/-! DEFINITION. Load and store: LD, LDR, ST (rules R190 to R195). -/

namespace Sys2Proof.Machine

/-- A load: read the word and write it to Rc, or give the instruction no meaning (rule R193). -/
def loadFrom (address : Except Refusal Word) (rc : Reg) (s : State) : StepOutcome :=
  match address with
  | .ok a => .next (s.writeResult rc (s.readWord a))
  | .error r => .refused r

/-- A store: write the word, all four bytes, or give the instruction no meaning (rule R193). -/
def storeTo (address : Except Refusal Word) (v : Word) (s : State) : StepOutcome :=
  match address with
  | .ok a => .next (s.writeWord a v).advance
  | .error r => .refused r

/-- LD: `EA = x[Ra] + sext_32(lit); x[Rc] <- MemRead(EA, 4)` (rules R57, R68, R190). -/
def execLd (ra : Reg) (lit : Int) (rc : Reg) (s : State) : StepOutcome :=
  loadFrom (dataAddress s.platform (effectiveAddress (s.reg ra) lit)) rc s

/-- LDR: `EA = {0, npc[30:0] + 4*signed16(lit)}; x[Rc] <- MemRead(EA, 4)`; no register is read (rules R68, R191). -/
def execLdr (lit : Int) (rc : Reg) (s : State) : StepOutcome :=
  loadFrom (dataAddress s.platform (ldrAddress (nextPc s.pc) lit)) rc s

/-- ST: `EA = x[Ra] + sext_32(lit); MemWrite(EA, 4, x[Rc])`; no register is written (rules R57, R68, R192). -/
def execSt (rc : Reg) (lit : Int) (ra : Reg) (s : State) : StepOutcome :=
  storeTo (dataAddress s.platform (effectiveAddress (s.reg ra) lit)) (s.reg rc) s

end Sys2Proof.Machine
end

