-- ==== Sys2Proof/Machine/Privileged.lean ====
section
/-! DEFINITION. The privileged class, opcode 0x00 (rules R89, R230, R231). -/

namespace Sys2Proof.Machine

/-- `PRIV_SEMANTICS(w, state)`: the spec gives no privileged instruction an effect (rule R231, log entry 16). -/
def privilegedOutcome (s : State) : StepOutcome :=
  match s.platform.privSemantics with
  | .refuse => .refused .privilegedSemantics

/-- Opcode 0x00: the illegal instruction exception in user mode, whatever the form. In supervisor mode "form and semantics
are implementation-defined" and no effect is given: `PRIV_SEMANTICS = refuse` (rule R231, log entry 16). -/
def execPrivileged (_form : BitVec 26) (s : State) : StepOutcome :=
  if s.isSupervisor then privilegedOutcome s else raiseIllegalInstruction s

end Sys2Proof.Machine
end

