-- ==== Sys2Proof/Machine/Shift.lean ====
section
/-! DEFINITION. Shifts: SHL, SHLC, SHR, SHRC, SRA, SRAC (rules R170 to R177). -/

namespace Sys2Proof.Machine

/-- SHL: `x[Rc] <- x[Ra] << x[Rb][4:0]` (rules R170, R176). -/
def execShl (ra rb rc : Reg) (s : State) : StepOutcome :=
  operate shiftLeft ra rb rc s

/-- SHLC: `x[Rc] <- x[Ra] << lit[4:0]` (rules R171, R176). -/
def execShlc (ra : Reg) (lit : Int) (rc : Reg) (s : State) : StepOutcome :=
  operateLiteral shiftLeft ra lit rc s

/-- SHR: `x[Rc] <- x[Ra] >>u x[Rb][4:0]` (rules R172, R176). -/
def execShr (ra rb rc : Reg) (s : State) : StepOutcome :=
  operate shiftRightLogical ra rb rc s

/-- SHRC: `x[Rc] <- x[Ra] >>u lit[4:0]` (rules R173, R176). -/
def execShrc (ra : Reg) (lit : Int) (rc : Reg) (s : State) : StepOutcome :=
  operateLiteral shiftRightLogical ra lit rc s

/-- SRA: `x[Rc] <- x[Ra] >>s x[Rb][4:0]` (rules R174, R176). -/
def execSra (ra rb rc : Reg) (s : State) : StepOutcome :=
  operate shiftRightArithmetic ra rb rc s

/-- SRAC: `x[Rc] <- x[Ra] >>s lit[4:0]` (rules R175, R176). -/
def execSrac (ra : Reg) (lit : Int) (rc : Reg) (s : State) : StepOutcome :=
  operateLiteral shiftRightArithmetic ra lit rc s

end Sys2Proof.Machine
end

