-- ==== Sys2Proof/Machine/Dispatch.lean ====
section
/-! DEFINITION. The dispatch of the instructions to their meanings. -/

namespace Sys2Proof.Machine

def exec (i : Instr) (s : State) : Host.Outcome State Fault Refusal :=
  match i with
  | .add ra rb rc => Sys2Proof.Machine.execAdd ra rb rc s
  | .addc ra lit rc => Sys2Proof.Machine.execAddc ra lit rc s
  | .and ra rb rc => Sys2Proof.Machine.execAnd ra rb rc s
  | .andc ra lit rc => Sys2Proof.Machine.execAndc ra lit rc s
  | .beq ra lit rc => Sys2Proof.Machine.execBeq ra lit rc s
  | .bne ra lit rc => Sys2Proof.Machine.execBne ra lit rc s
  | .cmpeq ra rb rc => Sys2Proof.Machine.execCmpeq ra rb rc s
  | .cmpeqc ra lit rc => Sys2Proof.Machine.execCmpeqc ra lit rc s
  | .cmple ra rb rc => Sys2Proof.Machine.execCmple ra rb rc s
  | .cmplec ra lit rc => Sys2Proof.Machine.execCmplec ra lit rc s
  | .cmplt ra rb rc => Sys2Proof.Machine.execCmplt ra rb rc s
  | .cmpltc ra lit rc => Sys2Proof.Machine.execCmpltc ra lit rc s
  | .div ra rb rc => Sys2Proof.Machine.execDiv ra rb rc s
  | .divc ra lit rc => Sys2Proof.Machine.execDivc ra lit rc s
  | .jmp ra rc => Sys2Proof.Machine.execJmp ra rc s
  | .ld ra lit rc => Sys2Proof.Machine.execLd ra lit rc s
  | .ldr lit rc => Sys2Proof.Machine.execLdr lit rc s
  | .mul ra rb rc => Sys2Proof.Machine.execMul ra rb rc s
  | .mulc ra lit rc => Sys2Proof.Machine.execMulc ra lit rc s
  | .or ra rb rc => Sys2Proof.Machine.execOr ra rb rc s
  | .orc ra lit rc => Sys2Proof.Machine.execOrc ra lit rc s
  | .shl ra rb rc => Sys2Proof.Machine.execShl ra rb rc s
  | .shlc ra lit rc => Sys2Proof.Machine.execShlc ra lit rc s
  | .shr ra rb rc => Sys2Proof.Machine.execShr ra rb rc s
  | .shrc ra lit rc => Sys2Proof.Machine.execShrc ra lit rc s
  | .sra ra rb rc => Sys2Proof.Machine.execSra ra rb rc s
  | .srac ra lit rc => Sys2Proof.Machine.execSrac ra lit rc s
  | .st rc lit ra => Sys2Proof.Machine.execSt rc lit ra s
  | .sub ra rb rc => Sys2Proof.Machine.execSub ra rb rc s
  | .subc ra lit rc => Sys2Proof.Machine.execSubc ra lit rc s
  | .xor ra rb rc => Sys2Proof.Machine.execXor ra rb rc s
  | .xorc ra lit rc => Sys2Proof.Machine.execXorc ra lit rc s
  | .xnor ra rb rc => Sys2Proof.Machine.execXnor ra rb rc s
  | .xnorc ra lit rc => Sys2Proof.Machine.execXnorc ra lit rc s
  | .privileged form => Sys2Proof.Machine.execPrivileged form s

end Sys2Proof.Machine
end

