-- ==== Sys2Proof/Machine/Step.lean ====
section
/-! DEFINITION. One step of the machine, and the placing of the next instruction. -/

namespace Sys2Proof.Machine

/-- One step (rule R299): the environment acts, then reset, an interrupt, or the instruction at the PC. -/
def step (s : State) : Host.Outcome State Fault Refusal :=
  match nextEvent s.input s.afterEnvironment with
  | .reset => .next (reassertReset s.afterEnvironment)
  | .interrupt vec => .next (takeException vec s.afterEnvironment)
  | .instruction i => exec i s.afterEnvironment
  | .illegal => raiseIllegalInstruction s.afterEnvironment
  | .refused r => .refused r

/-- `s` with the instruction whose bits are `w`, every bit from `nbits` up zero, stored where `step` fetches next, and
with no input of the environment in its way. -/
def State.withFetchWord (s : State) (nbits w : Nat) : State :=
  placeWord s (BitVec.ofNat 32 (w % 2 ^ nbits))

end Sys2Proof.Machine
end

