-- ==== Sys2Proof/Machine/Assembler.lean ====
section
/-! DEFINITION. The assembler's front end: labels, second mnemonics and macros (rules R93 to R98, R240 to R254,
R257). A label stands for its byte address. -/

namespace Sys2Proof.Machine

/-- A literal operand as an assembly program writes it; none when it does not fit (rule R97). -/
def checkedLiteral (lit : Int) : Option Int :=
  if fitsLiteral lit then some lit else none

/-- `((OFFSET(label) - OFFSET(current instruction)) / 4) - 1` (rule R95); none when the distance is no multiple of 4 or
the literal does not fit (rule R97). -/
def literalOfLabel (here label : Nat) : Option Int :=
  if ((label : Int) - here) % 4 = 0 then checkedLiteral (((label : Int) - here) / 4 - 1) else none

/-- The literal of the macros LD and ST for an absolute byte address (rule R96); none when it does not fit. -/
def literalOfAddress (a : Word) : Option Int := checkedLiteral a.toInt

/-- What an assembly program may write beside the instructions with plain literals: the label forms of BEQ, BNE and LDR,
the mnemonics BF and BT, and the fifteen macros of rule R257. -/
inductive Macro
  /-- `BEQ(Ra, label, Rc)` (rules R93, R95). -/
  | beqLink (ra : Reg) (label : Nat) (rc : Reg)
  /-- `BF(Ra, label, Rc)` (rule R94). -/
  | bfLink (ra : Reg) (label : Nat) (rc : Reg)
  /-- `BNE(Ra, label, Rc)` (rules R93, R95). -/
  | bneLink (ra : Reg) (label : Nat) (rc : Reg)
  /-- `BT(Ra, label, Rc)` (rule R94). -/
  | btLink (ra : Reg) (label : Nat) (rc : Reg)
  /-- `LDR(label, Rc)` (rules R93, R95). -/
  | ldr (label : Nat) (rc : Reg)
  /-- `BEQ(Ra, label)` (rule R240). -/
  | beq (ra : Reg) (label : Nat)
  /-- `BF(Ra, label)` (rule R241). -/
  | bf (ra : Reg) (label : Nat)
  /-- `BNE(Ra, label)` (rule R242). -/
  | bne (ra : Reg) (label : Nat)
  /-- `BT(Ra, label)` (rule R243). -/
  | bt (ra : Reg) (label : Nat)
  /-- `BR(label, Rc)` (rule R244). -/
  | brLink (label : Nat) (rc : Reg)
  /-- `BR(label)` (rule R245). -/
  | br (label : Nat)
  /-- `JMP(Ra)` (rule R246). -/
  | jmp (ra : Reg)
  /-- `LD(label, Rc)` (rule R247). -/
  | ld (label : Word) (rc : Reg)
  /-- `ST(Rc, label)` (rule R248). -/
  | st (rc : Reg) (label : Word)
  /-- `MOVE(Ra, Rc)` (rule R249). -/
  | move (ra rc : Reg)
  /-- `CMOVE(c, Rc)` (rule R250). -/
  | cmove (c : Int) (rc : Reg)
  /-- `PUSH(Ra)` (rule R251). -/
  | push (ra : Reg)
  /-- `POP(Rc)` (rule R252). -/
  | pop (rc : Reg)
  /-- `ALLOCATE(k)` (rule R253). -/
  | allocate (k : Nat)
  /-- `DEALLOCATE(k)` (rule R254). -/
  | deallocate (k : Nat)
  deriving DecidableEq, Repr

/-- The expansion of what stands at the byte address `here`; none when a literal does not fit. -/
def expand (here : Nat) : Macro → Option (List Instr)
  | .beqLink ra label rc => (literalOfLabel here label).map fun lit => [.beq ra lit rc]
  | .bfLink ra label rc => (literalOfLabel here label).map fun lit => [.beq ra lit rc]
  | .bneLink ra label rc => (literalOfLabel here label).map fun lit => [.bne ra lit rc]
  | .btLink ra label rc => (literalOfLabel here label).map fun lit => [.bne ra lit rc]
  | .ldr label rc => (literalOfLabel here label).map fun lit => [.ldr lit rc]
  | .beq ra label => (literalOfLabel here label).map fun lit => [.beq ra lit r31]
  | .bf ra label => (literalOfLabel here label).map fun lit => [.beq ra lit r31]
  | .bne ra label => (literalOfLabel here label).map fun lit => [.bne ra lit r31]
  | .bt ra label => (literalOfLabel here label).map fun lit => [.bne ra lit r31]
  | .brLink label rc => (literalOfLabel here label).map fun lit => [.beq r31 lit rc]
  | .br label => (literalOfLabel here label).map fun lit => [.beq r31 lit r31]
  | .jmp ra => some [.jmp ra r31]
  | .ld label rc => (literalOfAddress label).map fun lit => [.ld r31 lit rc]
  | .st rc label => (literalOfAddress label).map fun lit => [.st rc lit r31]
  | .move ra rc => some [.add ra r31 rc]
  | .cmove c rc => (checkedLiteral c).map fun lit => [.addc r31 lit rc]
  | .push ra => some [.addc sp 4 sp, .st ra (-4) sp]
  | .pop rc => some [.ld sp (-4) rc, .subc sp 4 sp]
  | .allocate k => (checkedLiteral (4 * k)).map fun lit => [.addc sp lit sp]
  | .deallocate k => (checkedLiteral (4 * k)).map fun lit => [.subc sp lit sp]

/-- The words of what stands at the byte address `here`. -/
def assembleMacro (here : Nat) (m : Macro) : Option (List Word) :=
  (expand here m).bind fun is => is.mapM assemble

end Sys2Proof.Machine
end

