-- ==== Sys2Proof/Machine/Conventions.lean ====
section
/-! DEFINITION. The software conventions of rules R255 to R262, which the hardware does not enforce (rule R263): the stack,
the procedure linkage and the stack frame; and the running of a straight piece of code. -/

namespace Sys2Proof.Machine

/-- The effects of instructions one after another, none of them interrupted and none fetched from memory: what a macro's
expansion does. -/
def execAll (is : List Instr) (s : State) : StepOutcome :=
  match is with
  | [] => .next s
  | i :: rest =>
    match exec i s with
    | .next t => execAll rest t
    | .fault f => .fault f
    | .refused r => .refused r

/-- "The topmost element is the word at `x[29] - 4`" (rule R255). -/
def stackTopAddress (s : State) : Word := s.reg sp - 4#32

/-- Where argument `i` lies when a procedure is entered (rule R258). -/
def argumentAddressAtEntry (s : State) (i : Nat) : Word := s.reg sp - 4#32 - BitVec.ofNat 32 (4 * i)

/-- Where the saved BP lies in a frame (rule R262). -/
def savedBpAddress (s : State) : Word := s.reg bp - 4#32

/-- Where the saved LP lies in a frame (rule R262). -/
def savedLpAddress (s : State) : Word := s.reg bp - 8#32

/-- Where argument `i` lies in a frame (rule R262). -/
def argumentAddress (s : State) (i : Nat) : Word := s.reg bp - 12#32 - BitVec.ofNat 32 (4 * i)

/-- Where local `j` lies in a frame (rule R262). -/
def localAddress (s : State) (j : Nat) : Word := s.reg bp + BitVec.ofNat 32 (4 * j)

/-- Where saved register `n` lies in a frame with `k` locals (rule R262). -/
def savedRegisterAddress (s : State) (k n : Nat) : Word := s.reg bp + BitVec.ofNat 32 (4 * k) + BitVec.ofNat 32 (4 * n)

/-- The standard call of the procedure at `label` with its arguments in registers, first argument first: they are pushed
last to first, and removed after the return (rule R259). -/
def callSequence (args : List Reg) (label : Nat) : List Macro :=
  args.reverse.map Macro.push ++ [.brLink label lp, .deallocate args.length]

/-- The standard prologue with `k` locals and the registers to save (rule R260). DESIGN CHOICE (log entry 29): ALLOCATE(k)
stands there for `k = 0` too, where the rule lets it be omitted. -/
def prologue (k : Nat) (saved : List Reg) : List Macro :=
  [.push lp, .push bp, .move sp bp, .allocate k] ++ saved.map Macro.push

/-- The standard epilogue; saved registers are popped in the reverse of the order they were pushed (rule R261). DESIGN CHOICE
(log entry 29): MOVE(BP, SP) stands there also where there are no locals, where the rule lets it be omitted. -/
def epilogue (saved : List Reg) : List Macro :=
  saved.reverse.map Macro.pop ++ [.move bp sp, .pop bp, .pop lp, .jmp lp]

end Sys2Proof.Machine
end

