-- ==== Sys2Proof/Machine/Launch.lean ====
section
/-! DEFINITION. What the host does to the machine before a run and after it (rules R321, R332): the launch state with its
memory image, and reading memory back. -/

namespace Sys2Proof.Machine

/-- A memory image: words at word addresses. -/
def loadWords (o : ByteOrder) (image : List (Word × Word)) (m : Memory) : Memory :=
  image.foldl (fun m cell => writeWord o m cell.1 cell.2) m

/-- A launch state (rule R321): the PC as reset leaves it, memory as the image says, the pending kinds and the coming inputs
of the environment as given; registers as the log names them (log entry 1). -/
def launch (p : Platform) (image : List (Word × Word)) (pending : List Nat) (inputs : List EnvInput) : State :=
  { State.reset with
    mem := loadWords p.byteOrder image []
    pending := pending
    platform := p
    inputs := inputs }

/-- The bytes of memory from `a` upward, as the host reads them back (rules R52, R332). -/
def readBack (s : State) (a n : Nat) : List Byte :=
  (List.range n).map fun k => readByte s.mem (a + k)

end Sys2Proof.Machine
end

