-- ==== Sys2Proof/Safety.lean ====
section
/-! DEFINITION. What the claims are stated in: the invariant of the machine, the end of a run, safe runs, and what it means
for an instruction to write one register, store one word, or take an exception, and to leave everything else. -/

namespace Sys2Proof.Machine

/-! ### The invariant -/

/-- A list of kinds below `n`, strictly rising from `low`. -/
def kindsWf (low n : Nat) : List Nat → Bool
  | [] => true
  | k :: rest => decide (low ≤ k) && decide (k < n) && kindsWf (k + 1) n rest

/-- What every step keeps: the memory has its canonical form, the PC is a multiple of 4 (rule R24), the pending set is a set
of kinds of `IRQ_KINDS` (rule R34), and the platform meets rule R8. -/
def State.wf (s : State) : Bool :=
  s.mem.wf && isAligned s.pc && kindsWf 0 s.platform.irqVectors.length s.pending && s.platform.wf

/-! ### Runs -/

/-- `END_OF_RUN` (rules R7, R331): the two definitions that add nothing to the architecture. -/
inductive EndOfRun
  /-- The PC reaches a designated address. -/
  | atAddress (pc : Word)
  /-- A branch to itself is reached in supervisor mode. -/
  | selfBranch
  deriving DecidableEq, Repr

/-- The word `BEQ(R31, ., R31)` (rule R331). -/
def selfBranchWord : Word := 0x73FFFFFF#32

/-- The run is over in this state (rule R331); a branch to itself is executed where the fetch address holds memory. -/
def ended (e : EndOfRun) (s : State) : Bool :=
  match e with
  | .atAddress pc => s.pc == pc
  | .selfBranch =>
    s.isSupervisor && wordInRegion s.platform (fetchAddress s.pc) && s.readWord (fetchAddress s.pc) == selfBranchWord

/-- No fault state is reached in `n` steps: a fault state is never a normal end (rule R293). A refusal claims nothing. -/
def safeFor (n : Nat) (s : State) : Bool :=
  match n with
  | 0 => true
  | k + 1 =>
    match step s with
    | .next t => safeFor k t
    | .fault _ => false
    | .refused _ => true

/-! ### The effects of one instruction -/

/-- Everything but registers, the PC and memory is as before. -/
structure SameSurroundings (s t : State) : Prop where
  pending : t.pending = s.pending
  platform : t.platform = s.platform
  inputs : t.inputs = s.inputs
  draws : t.draws = s.draws

/-- Every byte of memory is as before. -/
def SameMemory (s t : State) : Prop := ∀ a, readByte t.mem a = readByte s.mem a

/-- From `s` to `t`, register `rc` took the value `v` (register 31 discards it) and the PC became `pc`; every other register,
every byte of memory and all else is as before. -/
structure WritesOnly (s t : State) (rc : Reg) (v pc : Word) : Prop where
  destination : t.reg rc = if rc = r31 then 0#32 else v
  others : ∀ r, r ≠ rc → t.reg r = s.reg r
  pc : t.pc = pc
  memory : SameMemory s t
  surroundings : SameSurroundings s t

/-- From `s` to `t`, the word at `a` took the value `v` in the platform's byte order and the PC went on; every register, every
other byte of memory and all else is as before. -/
structure StoresOnly (s t : State) (a v : Word) : Prop where
  stored : ∀ k, k < 4 → readByte t.mem (a.toNat + k) = byteOfWord s.platform.byteOrder v k
  others : ∀ x, ¬ (a.toNat ≤ x ∧ x < a.toNat + 4) → readByte t.mem x = readByte s.mem x
  registers : ∀ r, t.reg r = s.reg r
  pc : t.pc = nextPc s.pc
  surroundings : SameSurroundings s t

/-- From `s` to `t`, an exception with this vector was taken (rule R290): XP holds the updated PC, the Supervisor bit is set
over the vector's bits 30:2, and all else is as before. -/
structure EntersException (s t : State) (vec : Word) : Prop where
  exceptionPointer : t.reg xp = nextPc s.pc
  others : ∀ r, r ≠ xp → t.reg r = s.reg r
  pc : t.pc.toNat = 2 ^ 31 + vec.toNat % 2 ^ 31 / 4 * 4
  memory : SameMemory s t
  surroundings : SameSurroundings s t

/-! ### The rules of instructions -/

/-- A word of the Without Literal format with any unused bits (rule R81). -/
def operateWord (op : BitVec 6) (rc ra rb : Reg) (unused : BitVec 11) : Word :=
  op ++ BitVec.ofFin (w := 5) rc ++ BitVec.ofFin (w := 5) ra ++ BitVec.ofFin (w := 5) rb ++ unused

/-- A word of the With Literal format (rule R82). -/
def literalWord (op : BitVec 6) (rc ra : Reg) (lit : BitVec 16) : Word :=
  op ++ BitVec.ofFin (w := 5) rc ++ BitVec.ofFin (w := 5) ra ++ lit

/-- What a rule of an Operate instruction says: which words it is, whatever their unused bits; and that in every state it
answers a next state in which Rc, and nothing else but the PC, holds a value in the given relation to the sources. -/
def OperateRule (op : BitVec 6) (mk : Reg → Reg → Reg → Instr) (result : Platform → Word → Word → Word → Prop) : Prop :=
  ∀ (ra rb rc : Reg) (unused : BitVec 11) (s : State),
    decode (operateWord op rc ra rb unused) = .ok (mk ra rb rc) ∧
    ∃ t v, exec (mk ra rb rc) s = .next t ∧ result s.platform (s.reg ra) (s.reg rb) v ∧
      WritesOnly s t rc v (nextPc s.pc)

/-- What a rule of an OPC instruction says, the literal being the sixteen bits of the word. -/
def LiteralRule (op : BitVec 6) (mk : Reg → Int → Reg → Instr) (result : Platform → Word → BitVec 16 → Word → Prop) : Prop :=
  ∀ (ra rc : Reg) (lit : BitVec 16) (s : State),
    decode (literalWord op rc ra lit) = .ok (mk ra lit.toInt rc) ∧
    ∃ t v, exec (mk ra lit.toInt rc) s = .next t ∧ result s.platform (s.reg ra) lit v ∧
      WritesOnly s t rc v (nextPc s.pc)

/-- The illegal instruction exception in user mode, `SUPERVISOR_FAULT` in supervisor mode (rules R233, R293). -/
def RaisesIllegalInstruction (s : State) (o : StepOutcome) : Prop :=
  (s.isSupervisor = false → ∃ t, o = .next t ∧ EntersException s t s.platform.vecIllop) ∧
  (s.isSupervisor = true → o = .fault .supervisorFault)

/-- No interrupt is taken at this boundary (rules R286, R287; log entry 17): the mode is supervisor mode, or a kind that is
chosen, if any, is no kind of `IRQ_KINDS` or is not pending, being neither raised now nor pending and not withdrawn. -/
def NoInterruptTaken (s : State) : Prop :=
  s.isSupervisor = true ∨
  ∀ k, s.input.take = some k →
    s.platform.irqVectors.length ≤ k ∨ k ∉ s.input.raised ∧ (k ∉ s.pending ∨ k ∈ s.input.cleared)

/-- Bits 31:26 of an optional opcode that the platform omits (rules R9, R233). -/
def IsOmittedOpcode (p : Platform) (op : BitVec 6) : Prop :=
  op = 0x22#6 ∧ p.implOptional.contains .mul = false ∨ op = 0x23#6 ∧ p.implOptional.contains .div = false ∨
  op = 0x32#6 ∧ p.implOptional.contains .mulc = false ∨ op = 0x33#6 ∧ p.implOptional.contains .divc = false

/-- What a rule of an optional Operate instruction says (rules R9, R233): as `OperateRule` where the implementation provides
the opcode; where it does not, the outcome of an illegal instruction. -/
def OptionalOperateRule (optional : OptionalOpcode) (op : BitVec 6) (mk : Reg → Reg → Reg → Instr)
    (result : Platform → Word → Word → Word → Prop) : Prop :=
  ∀ (ra rb rc : Reg) (unused : BitVec 11) (s : State),
    decode (operateWord op rc ra rb unused) = .ok (mk ra rb rc) ∧
    (s.platform.implOptional.contains optional = true →
      ∃ t v, exec (mk ra rb rc) s = .next t ∧ result s.platform (s.reg ra) (s.reg rb) v ∧
        WritesOnly s t rc v (nextPc s.pc)) ∧
    (s.platform.implOptional.contains optional = false → RaisesIllegalInstruction s (exec (mk ra rb rc) s))

/-- What a rule of an optional OPC instruction says. -/
def OptionalLiteralRule (optional : OptionalOpcode) (op : BitVec 6) (mk : Reg → Int → Reg → Instr)
    (result : Platform → Word → BitVec 16 → Word → Prop) : Prop :=
  ∀ (ra rc : Reg) (lit : BitVec 16) (s : State),
    decode (literalWord op rc ra lit) = .ok (mk ra lit.toInt rc) ∧
    (s.platform.implOptional.contains optional = true →
      ∃ t v, exec (mk ra lit.toInt rc) s = .next t ∧ result s.platform (s.reg ra) lit v ∧
        WritesOnly s t rc v (nextPc s.pc)) ∧
    (s.platform.implOptional.contains optional = false → RaisesIllegalInstruction s (exec (mk ra lit.toInt rc) s))

/-- `v` is the 1 or 0 that a comparison leaves (rule R157). -/
def IsTruthOf (holds : Prop) (v : Word) : Prop := (holds → v = 1#32) ∧ (¬ holds → v = 0#32)

/-- Bit `i` of the result is a function of bit `i` of each operand (rule R138). -/
def BitByBit (f : Bool → Bool → Bool) (a b v : Word) : Prop :=
  ∀ i, i < 32 → v.getLsbD i = f (a.getLsbD i) (b.getLsbD i)

/-- The same with a literal, whose bit 15 stands for the bits above it (rules R11, R138). -/
def BitByBitLiteral (f : Bool → Bool → Bool) (a : Word) (lit : BitVec 16) (v : Word) : Prop :=
  ∀ i, i < 32 → v.getLsbD i = f (a.getLsbD i) (lit.getLsbD (min i 15))

/-- `v` holds the low 32 bits of the quotient of `a` by `b`, not zero, in this reading (rule R119). -/
def IsQuotient (reading : DivReading) (a b v : Word) : Prop :=
  match reading with
  | .signedTruncating => ∃ q r : Int, a.toInt = q * b.toInt + r ∧ r.natAbs < b.toInt.natAbs ∧
      (0 ≤ a.toInt → 0 ≤ r) ∧ (a.toInt ≤ 0 → r ≤ 0) ∧ v = BitVec.ofInt 32 q
  | .signedFlooring => ∃ q r : Int, a.toInt = q * b.toInt + r ∧ r.natAbs < b.toInt.natAbs ∧
      (0 < b.toInt → 0 ≤ r) ∧ (b.toInt < 0 → r ≤ 0) ∧ v = BitVec.ofInt 32 q
  | .unsigned => v.toNat = a.toNat / b.toNat
  | .uninterpreted => v = Config.uninterpretedQuotient a b

/-- `v` is the word of the four bytes from `a` upward, in the platform's byte order (rules R52, R54). -/
def HoldsWord (s : State) (a v : Word) : Prop :=
  ∀ k, k < 4 → byteOfWord s.platform.byteOrder v k = readByte s.mem (a.toNat + k)

/-- The word address an LD or ST with the effective address `ea` accesses (rules R57, R68): `ea` itself where it is a multiple
of 4; with the low two bits cleared where it is not and the platform masks them; and inside `MEM_REGION`. -/
def Accesses (p : Platform) (ea a : Word) : Prop :=
  wordInRegion p a = true ∧
  (ea.toNat % 4 = 0 ∧ a = ea ∨
    ea.toNat % 4 ≠ 0 ∧ p.misalignedData = .maskLowTwoBits ∧ a.toNat = ea.toNat / 4 * 4)

/-- The register an instruction writes as its Rc (rule R36); ST and the privileged class write none. -/
def destination? : Instr → Option Reg
  | .add _ _ rc => some rc
  | .addc _ _ rc => some rc
  | .and _ _ rc => some rc
  | .andc _ _ rc => some rc
  | .beq _ _ rc => some rc
  | .bne _ _ rc => some rc
  | .cmpeq _ _ rc => some rc
  | .cmpeqc _ _ rc => some rc
  | .cmple _ _ rc => some rc
  | .cmplec _ _ rc => some rc
  | .cmplt _ _ rc => some rc
  | .cmpltc _ _ rc => some rc
  | .div _ _ rc => some rc
  | .divc _ _ rc => some rc
  | .jmp _ rc => some rc
  | .ld _ _ rc => some rc
  | .ldr _ rc => some rc
  | .mul _ _ rc => some rc
  | .mulc _ _ rc => some rc
  | .or _ _ rc => some rc
  | .orc _ _ rc => some rc
  | .shl _ _ rc => some rc
  | .shlc _ _ rc => some rc
  | .shr _ _ rc => some rc
  | .shrc _ _ rc => some rc
  | .sra _ _ rc => some rc
  | .srac _ _ rc => some rc
  | .st _ _ _ => none
  | .sub _ _ rc => some rc
  | .subc _ _ rc => some rc
  | .xor _ _ rc => some rc
  | .xorc _ _ rc => some rc
  | .xnor _ _ rc => some rc
  | .xnorc _ _ rc => some rc
  | .privileged _ => none

/-- The instructions that write the updated PC to Rc (rule R213). -/
def links : Instr → Bool
  | .beq _ _ _ => true
  | .bne _ _ _ => true
  | .jmp _ _ => true
  | .add _ _ _ => false
  | .addc _ _ _ => false
  | .and _ _ _ => false
  | .andc _ _ _ => false
  | .cmpeq _ _ _ => false
  | .cmpeqc _ _ _ => false
  | .cmple _ _ _ => false
  | .cmplec _ _ _ => false
  | .cmplt _ _ _ => false
  | .cmpltc _ _ _ => false
  | .div _ _ _ => false
  | .divc _ _ _ => false
  | .ld _ _ _ => false
  | .ldr _ _ => false
  | .mul _ _ _ => false
  | .mulc _ _ _ => false
  | .or _ _ _ => false
  | .orc _ _ _ => false
  | .shl _ _ _ => false
  | .shlc _ _ _ => false
  | .shr _ _ _ => false
  | .shrc _ _ _ => false
  | .sra _ _ _ => false
  | .srac _ _ _ => false
  | .st _ _ _ => false
  | .sub _ _ _ => false
  | .subc _ _ _ => false
  | .xor _ _ _ => false
  | .xorc _ _ _ => false
  | .xnor _ _ _ => false
  | .xnorc _ _ _ => false
  | .privileged _ => false

/-- The two instructions' outcomes are the same but for the Supervisor bit of the PC and of a link (rule R234): both refuse for
the same reason, or both answer a next state with the same memory, the same registers but for bit 31 of a link, and the same
address bits of the PC. -/
def AgreeButForMode (i : Instr) (o o' : StepOutcome) : Prop :=
  (∃ r, o = .refused r ∧ o' = .refused r) ∨
  ∃ t t', o = .next t ∧ o' = .next t' ∧ t.mem = t'.mem ∧ SameSurroundings t t' ∧
    t.pc.extractLsb' 0 31 = t'.pc.extractLsb' 0 31 ∧
    ∀ r, (links i = true ∧ destination? i = some r → (t.reg r).extractLsb' 0 31 = (t'.reg r).extractLsb' 0 31) ∧
      (¬ (links i = true ∧ destination? i = some r) → t.reg r = t'.reg r)

/-- The same state in the given mode. -/
def State.inMode (s : State) (supervisor : Bool) : State :=
  { s with pc := BitVec.ofBool supervisor ++ s.pc.extractLsb' 0 31 }

end Sys2Proof.Machine
end

