-- ==== Sys2Proof/Certificates/Slice0/Obligations.lean ====
section
/-! DEFINITION. The statements for the provers. They hold for every platform (log entry 4), unless a clause names a parameter's
value. -/

open Sys2Proof Sys2Proof.Machine

/-! ### Encoding -/

/-- Decoding the word of a well-formed instruction gives the instruction back, for all 35 constructors and every value of every
operand (rules R81 to R91, R97). -/
def Obligations.DecodeOfEncodeIsTheInstruction : Prop :=
  ∀ i : Instr, i.wf = true → decode (encode i) = .ok i

/-- The other direction: a word that decodes differs from the instruction's canonical word in unused bits only (rule R91). No
opcode, register or literal bit is dropped; a privileged word is kept whole. -/
def Obligations.EncodeOfDecodeKeepsUsedBits : Prop :=
  ∀ (w : Word) (i : Instr), decode w = .ok i →
    i.wf = true ∧ opcodeField (encode i) = opcodeField w ∧
    (opcodeField w = 0x00#6 → encode i = w) ∧
    (opcodeField w ≠ 0x00#6 → rcField (encode i) = rcField w) ∧
    (opcodeField w ≠ 0x00#6 → opcodeField w ≠ 0x1F#6 → raField (encode i) = raField w) ∧
    ((opcodeField w).extractLsb' 4 2 = 0b10#2 → rbField (encode i) = rbField w) ∧
    ((opcodeField w).extractLsb' 4 1 = 0b1#1 → opcodeField w ≠ 0x1B#6 → litField (encode i) = litField w)

/-- Decoding is total and looks at bits 31:26 only to accept or reject: a word is rejected exactly when its opcode is one of the
29 unassigned values, and then by that opcode (rules R87, R90). That these are the illegal ones is the spec's reading (D9, log
entry 21). THE MODEL'S CHOICE (log entry 7): the decoder gives MUL, DIV, MULC and DIVC their instruction on every platform and
leaves the check of `IMPL_OPTIONAL` to the meaning. -/
def Obligations.DecodeRejectsExactlyUnassignedOpcodes : Prop :=
  ∀ w : Word,
    (opcodeField w ∈ unassignedOpcodes → decode w = .error (.illegalOpcode (opcodeField w))) ∧
    (opcodeField w ∉ unassignedOpcodes → ∃ i, decode w = .ok i)

/-- A few words written out bit by bit from the formats of rules R81 and R82 decode to their instructions. -/
def Obligations.SampleWordsDecode : Prop :=
  decode 0b10000100101000110010000000000000#32 = .ok (.sub 3 4 5) ∧
  decode 0b01100100101111110000001111101000#32 = .ok (.st 5 1000 r31) ∧
  decode 0b11000000011000011111111111111111#32 = .ok (.addc 1 (-1) 3) ∧
  decode 0b01110111111000011111111111111101#32 = .ok (.bne 1 (-3) r31) ∧
  decode 0b01101111111111100000000000000000#32 = .ok (.jmp xp r31) ∧
  decode 0b01111100100111111111111111111110#32 = .ok (.ldr (-2) 4) ∧
  decode 0b00000000000000000000000000000001#32 = .ok (.privileged 1#26) ∧
  decode 0b00000100000000000000000000000000#32 = .error (.illegalOpcode 0x01#6)

/-- The assembler's well-formedness check refuses a literal that does not fit and never truncates (rule R97 and D21, the spec's
decision). -/
def Obligations.AssemblerRefusesLiteralsOutOfRange : Prop :=
  ∀ i : Instr, (∀ lit, i.literal? = some lit → ¬ (-32768 ≤ lit ∧ lit ≤ 32767) → assemble i = none) ∧
    (∀ lit, i.literal? = some lit → -32768 ≤ lit ∧ lit ≤ 32767 → ∃ w, assemble i = some w ∧ decode w = .ok i)

/-- The literal an assembler makes of a label sends a branch at `here` to that label: `OFFSET(label) = OFFSET(current instruction)
+ 4 + 4*literal` (rule R95), for code in the low 2^31 bytes. -/
def Obligations.LabelLiteralReachesLabel : Prop :=
  ∀ (here label : Nat) (lit : Int) (p : Word), here < 2 ^ 31 → label < 2 ^ 31 → here % 4 = 0 →
    p.toNat % 2 ^ 31 = here → literalOfLabel here label = some lit →
    (relTarget (nextPc p) lit).toNat % 2 ^ 31 = label ∧ (label : Int) = here + 4 + 4 * lit

/-- The macros expand as the source's table says wherever the literal fits, and have no expansion where it does not (rules R96,
R240 to R254, R257; that they are refused there is D21, log entry 23). -/
def Obligations.MacrosExpandAsTheTable : Prop :=
  ∀ (here : Nat) (ra rc : Reg) (label : Nat),
    (∀ lit, literalOfLabel here label = some lit →
      expand here (.beq ra label) = some [.beq ra lit r31] ∧ expand here (.bf ra label) = some [.beq ra lit r31] ∧
      expand here (.bne ra label) = some [.bne ra lit r31] ∧ expand here (.bt ra label) = some [.bne ra lit r31] ∧
      expand here (.brLink label rc) = some [.beq r31 lit rc] ∧ expand here (.br label) = some [.beq r31 lit r31]) ∧
    (literalOfLabel here label = none →
      expand here (.beq ra label) = none ∧ expand here (.bf ra label) = none ∧
      expand here (.bne ra label) = none ∧ expand here (.bt ra label) = none ∧
      expand here (.brLink label rc) = none ∧ expand here (.br label) = none) ∧
    expand here (.jmp ra) = some [.jmp ra r31] ∧ expand here (.move ra rc) = some [.add ra r31 rc] ∧
    expand here (.push ra) = some [.addc sp 4 sp, .st ra (-4) sp] ∧
    expand here (.pop rc) = some [.ld sp (-4) rc, .subc sp 4 sp] ∧
    (∀ c : Int, (-32768 ≤ c ∧ c ≤ 32767 → expand here (.cmove c rc) = some [.addc r31 c rc]) ∧
      (¬ (-32768 ≤ c ∧ c ≤ 32767) → expand here (.cmove c rc) = none)) ∧
    (∀ k : Nat, (k ≤ 8191 → expand here (.allocate k) = some [.addc sp (4 * k) sp] ∧
        expand here (.deallocate k) = some [.subc sp (4 * k) sp]) ∧
      (8191 < k → expand here (.allocate k) = none ∧ expand here (.deallocate k) = none)) ∧
    (∀ a : Word, (a.toNat ≤ 0x7FFF ∨ 0xFFFF8000 ≤ a.toNat → expand here (.ld a rc) = some [.ld r31 a.toInt rc] ∧
        expand here (.st rc a) = some [.st rc a.toInt r31]) ∧
      (0x7FFF < a.toNat ∧ a.toNat < 0xFFFF8000 → expand here (.ld a rc) = none ∧ expand here (.st rc a) = none))

/-! ### Registers and the program counter -/

/-- "When read, register 31 is always 0; when written, the new value is discarded"; the others are plain storage (rule R21). -/
def Obligations.RegisterThirtyOneIsZeroOthersAreStorage : Prop :=
  ∀ (s : State) (r : Reg) (v : Word),
    s.reg r31 = 0#32 ∧ s.setReg r31 v = s ∧ (r ≠ r31 → (s.setReg r v).reg r = v) ∧
    ∀ q, q ≠ r → (s.setReg r v).reg q = s.reg q

/-- The updated PC is four more, and a relative target four times the literal away, in bits 30:0 and modulo 2^31; both have the
Supervisor bit they started from (rules R26, R27). The wrap at the ends of the range is the spec's decision D3 (log entry 19). -/
def Obligations.UpdatedPcAndRelativeTargetStayInTheirMode : Prop :=
  (∀ p : Word, (nextPc p).toNat = p.toNat / 2 ^ 31 * 2 ^ 31 + (p.toNat % 2 ^ 31 + 4) % 2 ^ 31) ∧
  ∀ (p : Word) (lit : Int),
    ((relTarget p lit).toNat : Int) = (p.toNat / 2 ^ 31 * 2 ^ 31 : Nat) + ((p.toNat % 2 ^ 31 : Nat) + 4 * lit) % 2 ^ 31

/-- The fetch ignores the Supervisor bit: the same word is fetched, and leads to the same, in both modes; with the PC a multiple of 4
the address is `{0, pc[30:0]}` (rule R25). -/
def Obligations.FetchIgnoresSupervisorBit : Prop :=
  ∀ (s : State) (supervisor : Bool),
    fetchEvent (s.inMode supervisor) = fetchEvent s ∧
    (s.pc.toNat % 4 = 0 → (fetchAddress s.pc).toNat = s.pc.toNat % 2 ^ 31)

/-! ### Memory -/

/-- "replaces the 32-bit word at byte addresses addr to addr+3 by v, all four bytes at once [...] No other byte of memory changes"
(rule R55); and a read of that word then returns `v` (rule R54). -/
def Obligations.MemoryReadReturnsWhatWriteStored : Prop :=
  ∀ (s : State) (a v : Word), s.mem.wf = true → wordInRegion s.platform a = true →
    (s.writeWord a v).readWord a = v ∧
    (∀ k, k < 4 → readByte (s.writeWord a v).mem (a.toNat + k) = byteOfWord s.platform.byteOrder v k) ∧
    (∀ x, ¬ (a.toNat ≤ x ∧ x < a.toNat + 4) → readByte (s.writeWord a v).mem x = readByte s.mem x)

/-- Little-endian, the model's reset value of `BYTE_ORDER` (the spec's decision D1, log entry 12): the byte at `A+k` holds
`W[8k+7:8k]`; big-endian the other way round. -/
def Obligations.ByteOrderPlacesBytes : Prop :=
  ∀ (s : State) (a v : Word) (k : Nat), s.mem.wf = true → wordInRegion s.platform a = true → k < 4 →
    (s.platform.byteOrder = .littleEndian →
      (readByte (s.writeWord a v).mem (a.toNat + k)).toNat = v.toNat / 2 ^ (8 * k) % 2 ^ 8) ∧
    (s.platform.byteOrder = .bigEndian →
      (readByte (s.writeWord a v).mem (a.toNat + k)).toNat = v.toNat / 2 ^ (8 * (3 - k)) % 2 ^ 8)

/-! ### Instructions: results, frames, completion -/

/-- ADD, ADDC, SUB, SUBC (rules R110 to R113). -/
def Obligations.AddAndSubtractInstructions : Prop :=
  OperateRule 0b100000#6 .add (fun _ a b v => v.toNat = (a.toNat + b.toNat) % 2 ^ 32) ∧
  LiteralRule 0b110000#6 .addc (fun _ a lit v => (v.toNat : Int) = (a.toNat + lit.toInt) % 2 ^ 32) ∧
  OperateRule 0b100001#6 .sub (fun _ a b v => (v.toNat : Int) = ((a.toNat : Int) - b.toNat) % 2 ^ 32) ∧
  LiteralRule 0b110001#6 .subc (fun _ a lit v => (v.toNat : Int) = (a.toNat - lit.toInt) % 2 ^ 32)

/-- MUL and MULC, where they are provided and where they are omitted (rules R114, R115). -/
def Obligations.MultiplyInstructions : Prop :=
  OptionalOperateRule .mul 0b100010#6 .mul (fun _ a b v => v.toNat = a.toNat * b.toNat % 2 ^ 32) ∧
  OptionalLiteralRule .mulc 0b110010#6 .mulc (fun _ a lit v => (v.toNat : Int) = a.toNat * lit.toInt % 2 ^ 32)

/-- DIV and DIVC by a divisor that is not zero, in every reading of `DIV_FN` (rules R116, R117, R119; the reset platform's reading is the
spec's decision D6, log entry 10). -/
def Obligations.DivideInstructions : Prop :=
  (∀ (ra rb rc : Reg) (unused : BitVec 11) (s : State),
    decode (operateWord 0b100011#6 rc ra rb unused) = .ok (.div ra rb rc) ∧
    (s.platform.implOptional.contains .div = true → s.reg rb ≠ 0#32 →
      ∃ t v, exec (.div ra rb rc) s = .next t ∧ IsQuotient s.platform.divReading (s.reg ra) (s.reg rb) v ∧
        WritesOnly s t rc v (nextPc s.pc))) ∧
  (∀ (ra rc : Reg) (lit : BitVec 16) (s : State),
    decode (literalWord 0b110011#6 rc ra lit) = .ok (.divc ra lit.toInt rc) ∧
    (s.platform.implOptional.contains .divc = true → lit ≠ 0#16 →
      ∃ t v, exec (.divc ra lit.toInt rc) s = .next t ∧
        IsQuotient s.platform.divReading (s.reg ra) (lit.signExtend 32) v ∧ WritesOnly s t rc v (nextPc s.pc)))

/-- By zero, DIV and DIVC have no meaning where `DIV_BY_ZERO = refuse` (rules R7, R119; D7; the platform of `State.reset`). On a platform
with the free quotient, THE MODEL'S CHOICE of a further value (log entry 9), they write what nothing constrains and go on. -/
def Obligations.DivideByZeroWritesFreeQuotientOrRefuses : Prop :=
  (∀ (ra rb rc : Reg) (s : State), s.platform.implOptional.contains .div = true → s.reg rb = 0#32 →
    (s.platform.divByZero = .freeQuotient → ∃ t, exec (.div ra rb rc) s = .next t ∧
      WritesOnly s t rc (Config.quotientByZero (s.reg ra)) (nextPc s.pc)) ∧
    (s.platform.divByZero = .refuse → exec (.div ra rb rc) s = .refused .divisionByZero)) ∧
  (∀ (ra rc : Reg) (s : State), s.platform.implOptional.contains .divc = true →
    (s.platform.divByZero = .freeQuotient → ∃ t, exec (.divc ra 0 rc) s = .next t ∧
      WritesOnly s t rc (Config.quotientByZero (s.reg ra)) (nextPc s.pc)) ∧
    (s.platform.divByZero = .refuse → exec (.divc ra 0 rc) s = .refused .divisionByZero))

/-- DIV and DIVC where the implementation omits them are illegal instructions (rules R9, R116, R117, R233; D8, D13). -/
def Obligations.OmittedDivideIsIllegal : Prop :=
  (∀ (ra rb rc : Reg) (s : State), s.platform.implOptional.contains .div = false →
    RaisesIllegalInstruction s (exec (.div ra rb rc) s)) ∧
  (∀ (ra rc : Reg) (lit : Int) (s : State), s.platform.implOptional.contains .divc = false →
    RaisesIllegalInstruction s (exec (.divc ra lit rc) s))

/-- "All candidate readings (signed truncating, signed flooring, unsigned) agree, and give `floor(a / b)`, when `a[31] = 0`, `b[31] = 0`
and `b` is not zero" (rule R119). -/
def Obligations.DivisionReadingsAgreeOnNonnegative : Prop :=
  ∀ a b : Word, a.getLsbD 31 = false → b.getLsbD 31 = false → b ≠ 0#32 →
    ∀ reading, reading ≠ .uninterpreted → (quotient reading a b).toNat = a.toNat / b.toNat

/-- AND, ANDC, OR, ORC, XOR, XORC, XNOR, XNORC (rules R130 to R137). -/
def Obligations.BitwiseInstructions : Prop :=
  OperateRule 0b101000#6 .and (fun _ => BitByBit (fun x y => x && y)) ∧
  LiteralRule 0b111000#6 .andc (fun _ => BitByBitLiteral (fun x y => x && y)) ∧
  OperateRule 0b101001#6 .or (fun _ => BitByBit (fun x y => x || y)) ∧
  LiteralRule 0b111001#6 .orc (fun _ => BitByBitLiteral (fun x y => x || y)) ∧
  OperateRule 0b101010#6 .xor (fun _ => BitByBit (fun x y => x ^^ y)) ∧
  LiteralRule 0b111010#6 .xorc (fun _ => BitByBitLiteral (fun x y => x ^^ y)) ∧
  OperateRule 0b101011#6 .xnor (fun _ => BitByBit (fun x y => !(x ^^ y))) ∧
  LiteralRule 0b111011#6 .xnorc (fun _ => BitByBitLiteral (fun x y => !(x ^^ y)))

/-- CMPEQ and CMPEQC (rules R150, R151). -/
def Obligations.EqualityInstructions : Prop :=
  OperateRule 0b100100#6 .cmpeq (fun _ a b => IsTruthOf (a = b)) ∧
  LiteralRule 0b110100#6 .cmpeqc (fun _ a lit => IsTruthOf (a = lit.signExtend 32))

/-- CMPLT, CMPLTC, CMPLE, CMPLEC, signed where `CMP_SIGNED` holds and unsigned where it does not (rules R152 to R155; the reset
platform's value is the spec's decision D5, log entry 11). -/
def Obligations.OrderInstructions : Prop :=
  OperateRule 0b100101#6 .cmplt (fun p a b =>
    IsTruthOf (if p.cmpSigned then a.toInt < b.toInt else a.toNat < b.toNat)) ∧
  LiteralRule 0b110101#6 .cmpltc (fun p a lit =>
    IsTruthOf (if p.cmpSigned then a.toInt < lit.toInt else a.toNat < (lit.signExtend 32).toNat)) ∧
  OperateRule 0b100110#6 .cmple (fun p a b =>
    IsTruthOf (if p.cmpSigned then a.toInt ≤ b.toInt else a.toNat ≤ b.toNat)) ∧
  LiteralRule 0b110110#6 .cmplec (fun p a lit =>
    IsTruthOf (if p.cmpSigned then a.toInt ≤ lit.toInt else a.toNat ≤ (lit.signExtend 32).toNat))

/-- "Signed and unsigned comparison agree whenever `a[31] = b[31]`" (rule R156). -/
def Obligations.SignedAndUnsignedOrderAgreeOnEqualTopBits : Prop :=
  ∀ a b : Word, a.getLsbD 31 = b.getLsbD 31 →
    lessThan true a b = lessThan false a b ∧ lessOrEqual true a b = lessOrEqual false a b

/-- SHL, SHLC, SHR, SHRC, SRA, SRAC (rules R170 to R176): the count is an unsigned number 0 to 31. -/
def Obligations.ShiftInstructions : Prop :=
  OperateRule 0b101100#6 .shl (fun _ a b v => v.toNat = a.toNat * 2 ^ (b.toNat % 32) % 2 ^ 32) ∧
  LiteralRule 0b111100#6 .shlc (fun _ a lit v => v.toNat = a.toNat * 2 ^ (lit.toNat % 32) % 2 ^ 32) ∧
  OperateRule 0b101101#6 .shr (fun _ a b v => v.toNat = a.toNat / 2 ^ (b.toNat % 32)) ∧
  LiteralRule 0b111101#6 .shrc (fun _ a lit v => v.toNat = a.toNat / 2 ^ (lit.toNat % 32)) ∧
  OperateRule 0b101110#6 .sra (fun _ a b v => v.toInt = a.toInt.fdiv (2 ^ (b.toNat % 32))) ∧
  LiteralRule 0b111110#6 .srac (fun _ a lit v => v.toInt = a.toInt.fdiv (2 ^ (lit.toNat % 32)))

/-- LD (rules R57, R68, R190, R194): in every state and at every address it may access, it loads the word and changes nothing else. -/
def Obligations.LoadInstruction : Prop :=
  ∀ (ra rc : Reg) (lit : BitVec 16) (s : State) (a : Word),
    decode (literalWord 0b011000#6 rc ra lit) = .ok (.ld ra lit.toInt rc) ∧
    ((effectiveAddress (s.reg ra) lit.toInt).toNat : Int) = ((s.reg ra).toNat + lit.toInt) % 2 ^ 32 ∧
    (Accesses s.platform (effectiveAddress (s.reg ra) lit.toInt) a →
      ∃ t v, exec (.ld ra lit.toInt rc) s = .next t ∧ HoldsWord s a v ∧ WritesOnly s t rc v (nextPc s.pc))

/-- LDR (rules R68, R191): the Ra field is ignored and the Supervisor bit is read as zero. The wrap at the ends of the range is the
spec's decision D4 (log entry 19). -/
def Obligations.LoadRelativeInstruction : Prop :=
  ∀ (ra rc : Reg) (lit : BitVec 16) (s : State),
    decode (literalWord 0b011111#6 rc ra lit) = .ok (.ldr lit.toInt rc) ∧
    ((ldrAddress (nextPc s.pc) lit.toInt).toNat : Int) = (((nextPc s.pc).toNat % 2 ^ 31 : Nat) + 4 * lit.toInt) % 2 ^ 31 ∧
    (s.pc.toNat % 4 = 0 → wordInRegion s.platform (ldrAddress (nextPc s.pc) lit.toInt) = true →
      ∃ t v, exec (.ldr lit.toInt rc) s = .next t ∧ HoldsWord s (ldrAddress (nextPc s.pc) lit.toInt) v ∧
        WritesOnly s t rc v (nextPc s.pc))

/-- ST (rules R57, R68, R192, R194): at every address it may access, it stores the word of Rc, all four bytes, and changes nothing
else. -/
def Obligations.StoreInstruction : Prop :=
  ∀ (ra rc : Reg) (lit : BitVec 16) (s : State) (a : Word),
    decode (literalWord 0b011001#6 rc ra lit) = .ok (.st rc lit.toInt ra) ∧
    ((effectiveAddress (s.reg ra) lit.toInt).toNat : Int) = ((s.reg ra).toNat + lit.toInt) % 2 ^ 32 ∧
    (s.mem.wf = true → Accesses s.platform (effectiveAddress (s.reg ra) lit.toInt) a →
      ∃ t, exec (.st rc lit.toInt ra) s = .next t ∧ StoresOnly s t a (s.reg rc))

/-- Where LD, ST and LDR have no meaning: a misaligned LD or ST on a platform with `MISALIGNED_DATA = refuse`, and an access, the
masked word of a misaligned one among them, outside `MEM_REGION` (rules R57, R68, R191; D2, D18, log entries 8 and 14). -/
def Obligations.LoadAndStoreRefuseWhereUndefined : Prop :=
  (∀ (ra rc : Reg) (lit : Int) (s : State),
    ((effectiveAddress (s.reg ra) lit).toNat % 4 ≠ 0 → s.platform.misalignedData = .refuse →
      exec (.ld ra lit rc) s = .refused .misalignedData ∧ exec (.st rc lit ra) s = .refused .misalignedData) ∧
    ((effectiveAddress (s.reg ra) lit).toNat % 4 = 0 →
      wordInRegion s.platform (effectiveAddress (s.reg ra) lit) = false →
      exec (.ld ra lit rc) s = .refused .outsideMemRegion ∧ exec (.st rc lit ra) s = .refused .outsideMemRegion) ∧
    ∀ a : Word, (effectiveAddress (s.reg ra) lit).toNat % 4 ≠ 0 → s.platform.misalignedData = .maskLowTwoBits →
      a.toNat = (effectiveAddress (s.reg ra) lit).toNat / 4 * 4 → wordInRegion s.platform a = false →
      exec (.ld ra lit rc) s = .refused .outsideMemRegion ∧ exec (.st rc lit ra) s = .refused .outsideMemRegion) ∧
  ∀ (rc : Reg) (lit : Int) (s : State), s.pc.toNat % 4 = 0 →
    wordInRegion s.platform (ldrAddress (nextPc s.pc) lit) = false →
    exec (.ldr lit rc) s = .refused .outsideMemRegion

/-- BEQ and BNE (rules R210, R211): the test is of all 32 bits of the old value of Ra; the link is written in both outcomes. -/
def Obligations.BranchInstructions : Prop :=
  (∀ (ra rc : Reg) (lit : BitVec 16) (s : State),
    decode (literalWord 0b011100#6 rc ra lit) = .ok (.beq ra lit.toInt rc) ∧
    ∃ t, exec (.beq ra lit.toInt rc) s = .next t ∧
      WritesOnly s t rc (nextPc s.pc) (if s.reg ra = 0#32 then relTarget (nextPc s.pc) lit.toInt else nextPc s.pc)) ∧
  (∀ (ra rc : Reg) (lit : BitVec 16) (s : State),
    decode (literalWord 0b011101#6 rc ra lit) = .ok (.bne ra lit.toInt rc) ∧
    ∃ t, exec (.bne ra lit.toInt rc) s = .next t ∧
      WritesOnly s t rc (nextPc s.pc) (if s.reg ra ≠ 0#32 then relTarget (nextPc s.pc) lit.toInt else nextPc s.pc))

/-- JMP (rules R28, R212): the target is the old value of Ra with the low two bits masked; the Supervisor bit stays only where both the
PC and the register have it. Bits 15:0 of the word are ignored (D10). -/
def Obligations.JumpInstruction : Prop :=
  ∀ (ra rc : Reg) (unused : BitVec 16) (s : State),
    decode (literalWord 0b011011#6 rc ra unused) = .ok (.jmp ra rc) ∧
    ∃ t, exec (.jmp ra rc) s = .next t ∧ WritesOnly s t rc (nextPc s.pc) t.pc ∧
      t.pc.toNat = (if s.isSupervisor = true ∧ 2 ^ 31 ≤ (s.reg ra).toNat then 2 ^ 31 else 0) +
        (s.reg ra).toNat % 2 ^ 31 / 4 * 4

/-- The privileged class (rule R231): in user mode the illegal instruction exception, whatever the form; in supervisor mode no meaning, the
spec's decision D14 (log entry 16). -/
def Obligations.PrivilegedClass : Prop :=
  ∀ (form : BitVec 26) (s : State),
    decode (0b000000#6 ++ form) = .ok (.privileged form) ∧
    (s.isSupervisor = false → ∃ t, exec (.privileged form) s = .next t ∧ EntersException s t s.platform.vecIllop) ∧
    (s.isSupervisor = true → exec (.privileged form) s = .refused .privilegedSemantics)

/-- "Every one of them may be executed in user mode and in supervisor mode and does the same thing in both, with two mode-dependent details
only" (rule R234): the Supervisor bit of the PC and of a link. -/
def Obligations.InstructionsDoTheSameInBothModes : Prop :=
  ∀ (i : Instr) (s : State), (∀ form, i ≠ .privileged form) →
    (∀ op, optional? i = some op → s.platform.implOptional.contains op = true) →
    AgreeButForMode i (exec i (s.inMode true)) (exec i (s.inMode false))

/-! ### The step -/

/-- A step runs the decoded instruction: where reset is not asserted, no interrupt is taken, the fetch address is memory and the
word there decodes to `i`, with unused fields the platform does not refuse, the step is `exec i` of the state the environment leaves
(rules R25, R80, R299). What the environment leaves is THE MODEL'S CHOICE (log entry 17, after the spec's decisions D15 and D22, log
entry 27): the state with the first entry of `inputs` consumed and `pending` updated, and nothing else moved. A chosen kind that is not
pending, or is no kind, is no interrupt (log entry 17). -/
def Obligations.StepRunsTheDecodedInstruction : Prop :=
  ∀ (s : State) (i : Instr), s.input.reset = false → NoInterruptTaken s →
    wordInRegion s.platform (fetchAddress s.pc) = true →
    decode (s.readWord (fetchAddress s.pc)) = .ok i →
    (s.platform.noncanonicalFields = .ignore ∨ provides s.platform i = false ∨
      encode i = s.readWord (fetchAddress s.pc)) →
    i.wf = true ∧ step s = exec i s.afterEnvironment ∧
    s.afterEnvironment.regs = s.regs ∧ s.afterEnvironment.pc = s.pc ∧ s.afterEnvironment.mem = s.mem ∧
    s.afterEnvironment.platform = s.platform ∧ s.afterEnvironment.draws = s.draws ∧
    s.afterEnvironment.inputs = s.inputs.tail

/-- The word placed where the step fetches is the one it runs. THE MODEL'S CHOICE: `withFetchWord` stands for the load of a program
and clears `inputs` (log entry 25), after which the environment is idle (log entry 17); `decodeTableWord` lays its bytes out
little-endian (log entry 12). -/
def Obligations.PlacedWordIsTheOneExecuted : Prop :=
  ∀ (s : State) (w : Word) (i : Instr), s.mem.wf = true → wordInRegion s.platform (fetchAddress s.pc) = true →
    (s.platform.noncanonicalFields = .ignore ∨ provides s.platform i = false ∨ encode i = w) → decode w = .ok i →
    decodeTableWord 32 w.toNat = some i ∧
    step (s.withFetchWord 32 w.toNat) = exec i (s.withFetchWord 32 w.toNat).afterEnvironment ∧
    (s.withFetchWord 32 w.toNat).afterEnvironment = { s.withFetchWord 32 w.toNat with
      pending := s.pending }

/-- The fetch outside `MEM_REGION` has no meaning (rule R68; D18, log entry 14). -/
def Obligations.FetchOutsideMemRegionIsRefused : Prop :=
  ∀ s : State, s.input.reset = false → NoInterruptTaken s → wordInRegion s.platform (fetchAddress s.pc) = false →
    step s = .refused .outsideMemRegion

/-- On a platform with `NONCANONICAL_FIELDS = refuse`, the step at a word of a provided instruction that is not the canonical word
has no meaning (rules R7, R91; the alternative of D10, log entry 13). -/
def Obligations.NoncanonicalWordIsRefusedWhereChosen : Prop :=
  ∀ (s : State) (i : Instr), s.input.reset = false → NoInterruptTaken s →
    wordInRegion s.platform (fetchAddress s.pc) = true → s.platform.noncanonicalFields = .refuse →
    decode (s.readWord (fetchAddress s.pc)) = .ok i → provides s.platform i = true →
    encode i ≠ s.readWord (fetchAddress s.pc) → step s = .refused .noncanonicalFields

/-- An unassigned opcode (rules R233, R284, R290): in user mode the exception through `VEC_ILLOP`, in supervisor mode the fault state, whatever
the other bits (the spec's decisions D9, D12, D13; log entries 15, 20, 21). A chosen kind that is not pending, or is no kind, is no
interrupt (log entry 17). -/
def Obligations.UnassignedOpcodeRaisesIllegalInstruction : Prop :=
  ∀ s : State, s.input.reset = false → NoInterruptTaken s →
    wordInRegion s.platform (fetchAddress s.pc) = true →
    opcodeField (s.readWord (fetchAddress s.pc)) ∈ unassignedOpcodes →
    RaisesIllegalInstruction s.afterEnvironment (step s)

/-- An optional opcode that the platform omits is an illegal opcode like the unassigned ones, whatever the other 26 bits of the word and
whatever `NONCANONICAL_FIELDS` (rules R9, R87, R90, R233, R284; D8, D9, D13, log entries 7, 15, 21). -/
def Obligations.OmittedOpcodeRaisesIllegalInstruction : Prop :=
  ∀ s : State, s.input.reset = false → NoInterruptTaken s →
    wordInRegion s.platform (fetchAddress s.pc) = true →
    IsOmittedOpcode s.platform (opcodeField (s.readWord (fetchAddress s.pc))) →
    RaisesIllegalInstruction s.afterEnvironment (step s)

/-- An interrupt is taken at an instruction boundary in user mode when the environment's free choice is a pending kind: XP gets the updated PC, the
PC the kind's vector, the instruction has not run, and `pending` is what the environment left (rules R287, R288, R290; D12, D15, log entry
17). -/
def Obligations.ChosenPendingInterruptIsTakenInUserMode : Prop :=
  ∀ (s : State) (k : Nat) (vec : Word), s.input.reset = false → s.isSupervisor = false → s.input.take = some k →
    s.platform.irqVectors[k]? = some vec →
    (k ∈ s.input.raised ∨ (k ∈ s.pending ∧ k ∉ s.input.cleared)) →
    ∃ t, step s = .next t ∧ EntersException s.afterEnvironment t vec ∧ k ∈ t.pending

/-- "interrupts are enabled exactly when the Supervisor bit is 0" (rule R286): in supervisor mode, whatever is pending and whatever kind is
chosen, the step does what it does with no choice made. -/
def Obligations.NoInterruptIsTakenInSupervisorMode : Prop :=
  ∀ (s : State) (e : EnvInput) (rest : List EnvInput), s.isSupervisor = true → s.inputs = e :: rest →
    step s = step { s with inputs := { e with take := none } :: rest }

/-- The pending set belongs to the environment (rules R34, R288; D15, log entry 17): after a step a kind is pending exactly when it was raised, or
was pending and was not withdrawn; neither instructions nor taking an interrupt change that. That it holds of a re-asserted reset too is
THE MODEL'S CHOICE (log entry 18): the spec leaves the pending set after a reset unspecified. -/
def Obligations.PendingSetBelongsToTheEnvironment : Prop :=
  ∀ s t : State, step s = .next t →
    ∀ k, k ∈ t.pending ↔
      (k ∈ s.input.raised ∧ k < s.platform.irqVectors.length) ∨ (k ∈ s.pending ∧ k ∉ s.input.cleared)

/-- "Only exceptions cause the Supervisor bit to become set"; "The JMP instruction is allowed to clear the Supervisor bit but not set it, and no
other instructions may have any effect on it"; the machine starts in supervisor mode (rule R282). -/
def Obligations.ModeChangesOnlyByExceptionsAndJmp : Prop :=
  State.reset.isSupervisor = true ∧
  (∀ s t : State, step s = .next t → s.isSupervisor = false → t.isSupervisor = true →
    s.input.reset = true ∨
    ∃ vec, (vec = s.platform.vecIllop ∨ vec ∈ s.platform.irqVectors) ∧ EntersException s.afterEnvironment t vec) ∧
  (∀ s t : State, step s = .next t → s.isSupervisor = true → t.isSupervisor = false →
    s.input.reset = false ∧
    ∃ ra rc, decode (s.readWord (fetchAddress s.pc)) = .ok (.jmp ra rc) ∧ (s.reg ra).getLsbD 31 = false)

/-- "Nothing else in the hardware writes a general register except the Rc write of an instruction" (rule R23), beside exception entry, which writes
XP, and reset. -/
def Obligations.RegistersChangeOnlyByRcExceptionEntryAndReset : Prop :=
  ∀ (s t : State) (r : Reg), step s = .next t → t.reg r ≠ s.reg r →
    s.input.reset = true ∨
    (r = xp ∧ s.isSupervisor = false ∧ t.isSupervisor = true ∧ t.reg xp = nextPc s.pc) ∨
    (∃ i, decode (s.readWord (fetchAddress s.pc)) = .ok i ∧ destination? i = some r)

/-- "Memory is touched by four things only" (rule R50), and of them ST alone writes: a step that changes a byte executed an ST, and the byte is one
of the four at the address it accesses. -/
def Obligations.MemoryChangesOnlyByStore : Prop :=
  ∀ (s t : State) (x : Nat), step s = .next t → readByte t.mem x ≠ readByte s.mem x →
    ∃ rc lit ra a, decode (s.readWord (fetchAddress s.pc)) = .ok (.st rc lit ra) ∧
      dataAddress s.platform (effectiveAddress (s.reg ra) lit) = .ok a ∧ a.toNat ≤ x ∧ x < a.toNat + 4

/-- A store is seen by the very next fetch (rules R62, R65; D17, log entry 22): an ST to the address the next instruction is fetched from makes
the machine run the stored word. -/
def Obligations.StoreIsSeenByTheNextFetch : Prop :=
  ∀ (s t : State) (ra rc : Reg) (lit : Int) (i : Instr), s.mem.wf = true →
    exec (.st rc lit ra) s = .next t →
    dataAddress s.platform (effectiveAddress (s.reg ra) lit) = .ok (fetchAddress (nextPc s.pc)) →
    t.input.reset = false → t.input.take = none → s.platform.noncanonicalFields = .ignore →
    decode (s.reg rc) = .ok i →
    step t = exec i t.afterEnvironment

/-- A load of the word just stored returns it (rules R54, R62). -/
def Obligations.LoadReturnsTheWordJustStored : Prop :=
  ∀ (s t : State) (ra rc rd : Reg) (lit : Int), s.mem.wf = true → rd ≠ r31 →
    exec (.st rc lit ra) s = .next t →
    ∃ u, exec (.ld ra lit rd) t = .next u ∧ u.reg rd = s.reg rc

/-- Return from a trap (rules R291, R294): the handler's `JMP(XP)` resumes at the updated PC in user mode, `SUBC(XP,4,XP)` then `JMP(XP)` at the
instruction that was not executed, in user mode but for the one at 0x7FFFFFFC, with every register but XP and all memory as it was. The updated PC
of 0x7FFFFFFC is 0 (the spec's decision D3, rule R26; log entry 19), so XP - 4 has bit 31 set there and the second return stays in supervisor
mode. -/
def Obligations.HandlerReturnsToUserProgram : Prop :=
  ∀ (s : State) (vec : Word), s.isSupervisor = false → s.pc.toNat % 4 = 0 →
    (∃ t, exec (.jmp xp r31) (takeException vec s) = .next t ∧ t.pc = nextPc s.pc ∧ t.isSupervisor = false ∧
      (∀ r, r ≠ xp → t.reg r = s.reg r) ∧ SameMemory s t) ∧
    (∃ t, execAll [.subc xp 4 xp, .jmp xp r31] (takeException vec s) = .next t ∧
      (s.pc.toNat ≠ 2 ^ 31 - 4 → t.pc = s.pc) ∧ t.isSupervisor = (decide (s.pc.toNat = 2 ^ 31 - 4)) ∧
      (∀ r, r ≠ xp → t.reg r = s.reg r) ∧ SameMemory s t)

/-! ### Reset -/

/-- What reset leaves: the PC 0x80000000, supervisor mode, the first fetch at byte address 0, register 31 zero (rules R35, R320). Of XP, R0 to R29,
memory and `pending` nothing is said: their values are the model's (log entries 1 to 3). -/
def Obligations.ResetLeavesPcAndSupervisorMode : Prop :=
  State.reset.pc = 0x80000000#32 ∧ State.reset.isSupervisor = true ∧ (fetchAddress State.reset.pc).toNat = 0 ∧
    State.reset.reg r31 = 0#32

/-- Reset asserted on a running machine overrides everything (rule R289), leaves the PC as after power up and memory as it was (rule R322; D16, D19,
log entry 18). -/
def Obligations.AssertedResetRestartsAndKeepsMemory : Prop :=
  ∀ s : State, s.input.reset = true →
    ∃ t, step s = .next t ∧ t.pc = 0x80000000#32 ∧ t.isSupervisor = true ∧ t.reg r31 = 0#32 ∧ SameMemory s t ∧
      t.platform = s.platform

/-! ### Invariants -/

/-- Every step keeps the invariant: the canonical form of memory, the PC a multiple of 4 (rule R24), the pending set a subset of `IRQ_KINDS` (rule
R34), the vectors as rule R8 says. -/
def Obligations.EveryStepKeepsTheInvariant : Prop :=
  ∀ s t : State, s.wf = true → step s = .next t → t.wf = true

/-- The invariant holds at reset, for the model's reset values (log entries 1 to 14). -/
def Obligations.ResetMeetsTheInvariant : Prop :=
  State.reset.wf = true

/-- No step changes the implementation's parameters. -/
def Obligations.PlatformNeverChanges : Prop :=
  ∀ s t : State, step s = .next t → t.platform = s.platform

/-! ### Macros, conventions, end of run -/

/-- PUSH (rules R251, R255): the value goes into the slot SP pointed to, and SP ends 4 higher; with SP itself as the operand, the incremented SP. -/
def Obligations.PushStoresAndRaisesStackPointer : Prop :=
  ∀ (s : State) (ra : Reg), s.mem.wf = true → (s.reg sp).toNat % 4 = 0 → wordInRegion s.platform (s.reg sp) = true →
    ∃ t, execAll [.addc sp 4 sp, .st ra (-4) sp] s = .next t ∧ t.reg sp = s.reg sp + 4#32 ∧
      stackTopAddress t = s.reg sp ∧
      t.readWord (s.reg sp) = (if ra = sp then s.reg sp + 4#32 else s.reg ra) ∧
      (∀ r, r ≠ sp → t.reg r = s.reg r) ∧
      ∀ x, ¬ ((s.reg sp).toNat ≤ x ∧ x < (s.reg sp).toNat + 4) → readByte t.mem x = readByte s.mem x

/-- PUSH then POP into another register than SP (rules R251, R252): the value arrives, SP is back, all else but the stack slot is as before. -/
def Obligations.PopReturnsWhatPushStored : Prop :=
  ∀ (s : State) (ra rc : Reg), s.mem.wf = true → (s.reg sp).toNat % 4 = 0 → wordInRegion s.platform (s.reg sp) = true →
    ra ≠ sp → rc ≠ sp → rc ≠ r31 →
    ∃ t, execAll [.addc sp 4 sp, .st ra (-4) sp, .ld sp (-4) rc, .subc sp 4 sp] s = .next t ∧
      t.reg rc = s.reg ra ∧ t.reg sp = s.reg sp ∧ (∀ r, r ≠ rc → t.reg r = s.reg r) ∧
      ∀ x, ¬ ((s.reg sp).toNat ≤ x ∧ x < (s.reg sp).toNat + 4) → readByte t.mem x = readByte s.mem x

/-- MOVE copies a register, CMOVE loads a constant, BR always branches (rules R244, R249, R250). -/
def Obligations.MoveCmoveAndBrEffects : Prop :=
  ∀ (s : State) (ra rc : Reg) (lit : Int),
    (∃ t, execAll [.add ra r31 rc] s = .next t ∧ WritesOnly s t rc (s.reg ra) (nextPc s.pc)) ∧
    (∃ t, execAll [.addc r31 lit rc] s = .next t ∧ WritesOnly s t rc (sext32 lit) (nextPc s.pc)) ∧
    (∃ t, execAll [.beq r31 lit rc] s = .next t ∧ WritesOnly s t rc (nextPc s.pc) (relTarget (nextPc s.pc) lit))

/-- The standard prologue with `k` locals and no saved registers (rules R260, R262): BP ends 8 above the old SP, with the saved BP and LP in the two
slots below it, SP ends `4*k` above BP, argument `i` is at BP-12-4i, where it was, and every byte but the two saved words is as
before. That ALLOCATE stands there for `k = 0` too is THE MODEL'S CHOICE (log entry 29). -/
def Obligations.PrologueBuildsTheFrame : Prop :=
  ∀ (s : State) (k : Nat), k ≤ 8191 → s.mem.wf = true → (s.reg sp).toNat % 4 = 0 →
    wordInRegion s.platform (s.reg sp) = true → wordInRegion s.platform (s.reg sp + 4#32) = true →
    ∃ t, execAll [.addc sp 4 sp, .st lp (-4) sp, .addc sp 4 sp, .st bp (-4) sp, .add sp r31 bp, .addc sp (4 * k) sp] s
        = .next t ∧
      t.reg bp = s.reg sp + 8#32 ∧ t.reg sp = localAddress t k ∧
      t.readWord (savedBpAddress t) = s.reg bp ∧ t.readWord (savedLpAddress t) = s.reg lp ∧
      (∀ i, argumentAddress t i = argumentAddressAtEntry s i) ∧
      (∀ r, r ≠ sp → r ≠ bp → t.reg r = s.reg r) ∧
      ∀ x, ¬ ((s.reg sp).toNat ≤ x ∧ x < (s.reg sp).toNat + 4) →
        ¬ ((s.reg sp + 4#32).toNat ≤ x ∧ x < (s.reg sp + 4#32).toNat + 4) → readByte t.mem x = readByte s.mem x

/-- A branch to itself in supervisor mode is a state the processor never leaves (rule R331, definition (b) of `END_OF_RUN`): a step without reset
changes nothing but `pending` and `inputs`, and the run is still over. -/
def Obligations.SelfBranchInSupervisorModeEndsTheRun : Prop :=
  ∀ s : State, ended .selfBranch s = true → s.input.reset = false →
    step s = .next s.afterEnvironment ∧ ended .selfBranch s.afterEnvironment = true
end

