-- ==== Sys2Proof/Laws/Decode.lean ====
section
/-! SUPPORT. The laws of decoding and encoding: the fields of a word built from fields, literals that fit, and the one
lemma of `decode`. -/

namespace Sys2Proof

/-! ### Fields of the two formats -/

section Fields
variable (op : BitVec 6) (rc ra rb : Reg) (u : BitVec 11) (l : BitVec 16)

/-- A field of a word put together from fields. -/
theorem opcodeField_operateWord : opcodeField (Machine.operateWord op rc ra rb u) = op := by
  refine BitVec.eq_of_getLsbD_eq fun i hi => ?_
  simp only [opcodeField, Machine.operateWord, BitVec.getLsbD_append, BitVec.getLsbD_extractLsb', hi, decide_true,
    Bool.true_and]
  split_ifs <;> first | omega | (congr 1; omega)

theorem rcField_operateWord : rcField (Machine.operateWord op rc ra rb u) = rc := by
  have : (Machine.operateWord op rc ra rb u).extractLsb' 21 5 = BitVec.ofFin (w := 5) rc := by
    refine BitVec.eq_of_getLsbD_eq fun i hi => ?_
    simp only [Machine.operateWord, BitVec.getLsbD_append, BitVec.getLsbD_extractLsb', hi, decide_true, Bool.true_and]
    split_ifs <;> first | omega | (congr 1; omega)
  rw [rcField, this]

theorem raField_operateWord : raField (Machine.operateWord op rc ra rb u) = ra := by
  have : (Machine.operateWord op rc ra rb u).extractLsb' 16 5 = BitVec.ofFin (w := 5) ra := by
    refine BitVec.eq_of_getLsbD_eq fun i hi => ?_
    simp only [Machine.operateWord, BitVec.getLsbD_append, BitVec.getLsbD_extractLsb', hi, decide_true, Bool.true_and]
    split_ifs <;> first | omega | (congr 1; omega)
  rw [raField, this]

theorem rbField_operateWord : rbField (Machine.operateWord op rc ra rb u) = rb := by
  have : (Machine.operateWord op rc ra rb u).extractLsb' 11 5 = BitVec.ofFin (w := 5) rb := by
    refine BitVec.eq_of_getLsbD_eq fun i hi => ?_
    simp only [Machine.operateWord, BitVec.getLsbD_append, BitVec.getLsbD_extractLsb', hi, decide_true, Bool.true_and]
    split_ifs <;> first | omega | (congr 1; omega)
  rw [rbField, this]

theorem opcodeField_literalWord : opcodeField (Machine.literalWord op rc ra l) = op := by
  refine BitVec.eq_of_getLsbD_eq fun i hi => ?_
  simp only [opcodeField, Machine.literalWord, BitVec.getLsbD_append, BitVec.getLsbD_extractLsb', hi, decide_true,
    Bool.true_and]
  split_ifs <;> first | omega | (congr 1; omega)

theorem rcField_literalWord : rcField (Machine.literalWord op rc ra l) = rc := by
  have : (Machine.literalWord op rc ra l).extractLsb' 21 5 = BitVec.ofFin (w := 5) rc := by
    refine BitVec.eq_of_getLsbD_eq fun i hi => ?_
    simp only [Machine.literalWord, BitVec.getLsbD_append, BitVec.getLsbD_extractLsb', hi, decide_true, Bool.true_and]
    split_ifs <;> first | omega | (congr 1; omega)
  rw [rcField, this]

theorem raField_literalWord : raField (Machine.literalWord op rc ra l) = ra := by
  have : (Machine.literalWord op rc ra l).extractLsb' 16 5 = BitVec.ofFin (w := 5) ra := by
    refine BitVec.eq_of_getLsbD_eq fun i hi => ?_
    simp only [Machine.literalWord, BitVec.getLsbD_append, BitVec.getLsbD_extractLsb', hi, decide_true, Bool.true_and]
    split_ifs <;> first | omega | (congr 1; omega)
  rw [raField, this]

theorem litField_literalWord : litField (Machine.literalWord op rc ra l) = l.toInt := by
  have : (Machine.literalWord op rc ra l).extractLsb' 0 16 = l := by
    refine BitVec.eq_of_getLsbD_eq fun i hi => ?_
    simp only [Machine.literalWord, BitVec.getLsbD_append, BitVec.getLsbD_extractLsb', hi, decide_true, Bool.true_and,
      Nat.zero_add, if_true]
  rw [litField, this]

end Fields

theorem opcodeField_privilegedWord (form : BitVec 26) : opcodeField (0x00#6 ++ form) = 0x00#6 := by
  refine BitVec.eq_of_getLsbD_eq fun i hi => ?_
  simp only [opcodeField, BitVec.getLsbD_append, BitVec.getLsbD_extractLsb', hi, decide_true, Bool.true_and]
  split_ifs <;> first | omega | (congr 1; omega)

theorem formField_privilegedWord (form : BitVec 26) : formField (0x00#6 ++ form) = form := by
  refine BitVec.eq_of_getLsbD_eq fun i hi => ?_
  simp only [formField, BitVec.getLsbD_append, BitVec.getLsbD_extractLsb', hi, decide_true, Bool.true_and,
    Nat.zero_add, if_true]

/-! ### The encoder's words are words of the two formats -/

theorem encodeOperate_eq (op : BitVec 6) (rc ra rb : Reg) :
    encodeOperate op rc ra rb = Machine.operateWord op rc ra rb 0#11 := rfl

theorem encodeLiteral_eq (op : BitVec 6) (rc ra : Reg) (lit : Int) :
    encodeLiteral op rc ra lit = Machine.literalWord op rc ra (BitVec.ofInt 16 lit) := rfl

/-! ### Literals (rules R88, R97) -/

theorem fitsLiteral_iff (lit : Int) : fitsLiteral lit = true ↔ -32768 ≤ lit ∧ lit ≤ 32767 := by
  simp [fitsLiteral]

/-- A literal that fits is kept by its sixteen bits. -/
theorem toInt_ofInt_of_fitsLiteral {lit : Int} (h : fitsLiteral lit = true) : (BitVec.ofInt 16 lit).toInt = lit := by
  rw [fitsLiteral_iff] at h
  rw [BitVec.toInt_ofInt, Int.bmod_eq_of_le] <;> omega

/-- Sixteen bits stand for a literal that fits. -/
theorem fitsLiteral_toInt (l : BitVec 16) : fitsLiteral l.toInt = true := by
  rw [fitsLiteral_iff]
  have h1 := BitVec.le_toInt l
  have h2 := BitVec.toInt_lt (x := l)
  constructor <;> simp at h1 h2 <;> omega

/-- `sext_32` of a literal field is its sign extension (rule R11). -/
theorem sext32_toInt (l : BitVec 16) : Machine.sext32 l.toInt = l.signExtend 32 := rfl

/-- The literal field holds a literal that fits. -/
theorem fitsLiteral_litField (w : Word) : fitsLiteral (litField w) = true := fitsLiteral_toInt _

/-- The word of an omitted optional opcode decodes to an instruction the platform does not provide (rules R9, R87). -/
theorem decode_omitted {p : Platform} {w : Word} (h : Machine.IsOmittedOpcode p (opcodeField w)) :
    ∃ i, decode w = .ok i ∧ Machine.provides p i = false := by
  rcases h with ⟨h, hp⟩ | ⟨h, hp⟩ | ⟨h, hp⟩ | ⟨h, hp⟩
  all_goals
    unfold decode
    rw [h]
    exact ⟨_, rfl, hp⟩

end Sys2Proof
end

