-- ==== Sys2Proof/Laws/State.lean ====
section
/-! SUPPORT. One lemma per field per update of the state, and what a register reads after a write. -/

namespace Sys2Proof.Machine

/-! ### `setPc`, `advance` -/

@[simp] theorem setPc_regs (s : State) (v : Word) : (s.setPc v).regs = s.regs := rfl
@[simp] theorem setPc_pc (s : State) (v : Word) : (s.setPc v).pc = v := rfl
@[simp] theorem setPc_mem (s : State) (v : Word) : (s.setPc v).mem = s.mem := rfl
@[simp] theorem setPc_pending (s : State) (v : Word) : (s.setPc v).pending = s.pending := rfl
@[simp] theorem setPc_platform (s : State) (v : Word) : (s.setPc v).platform = s.platform := rfl
@[simp] theorem setPc_inputs (s : State) (v : Word) : (s.setPc v).inputs = s.inputs := rfl
@[simp] theorem setPc_draws (s : State) (v : Word) : (s.setPc v).draws = s.draws := rfl
@[simp] theorem setPc_reg (s : State) (v : Word) (r : Reg) : (s.setPc v).reg r = s.reg r := rfl

@[simp] theorem advance_pc (s : State) : s.advance.pc = nextPc s.pc := rfl
@[simp] theorem advance_mem (s : State) : s.advance.mem = s.mem := rfl
@[simp] theorem advance_pending (s : State) : s.advance.pending = s.pending := rfl
@[simp] theorem advance_platform (s : State) : s.advance.platform = s.platform := rfl
@[simp] theorem advance_inputs (s : State) : s.advance.inputs = s.inputs := rfl
@[simp] theorem advance_draws (s : State) : s.advance.draws = s.draws := rfl
@[simp] theorem advance_reg (s : State) (r : Reg) : s.advance.reg r = s.reg r := rfl

/-! ### `setReg`, `reg` -/

@[simp] theorem setReg_pc (s : State) (r : Reg) (v : Word) : (s.setReg r v).pc = s.pc := by
  unfold State.setReg; split <;> rfl
@[simp] theorem setReg_mem (s : State) (r : Reg) (v : Word) : (s.setReg r v).mem = s.mem := by
  unfold State.setReg; split <;> rfl
@[simp] theorem setReg_pending (s : State) (r : Reg) (v : Word) : (s.setReg r v).pending = s.pending := by
  unfold State.setReg; split <;> rfl
@[simp] theorem setReg_platform (s : State) (r : Reg) (v : Word) : (s.setReg r v).platform = s.platform := by
  unfold State.setReg; split <;> rfl
@[simp] theorem setReg_inputs (s : State) (r : Reg) (v : Word) : (s.setReg r v).inputs = s.inputs := by
  unfold State.setReg; split <;> rfl
@[simp] theorem setReg_draws (s : State) (r : Reg) (v : Word) : (s.setReg r v).draws = s.draws := by
  unfold State.setReg; split <;> rfl

/-- Register 31 reads as zero in every state (rule R21). -/
@[simp] theorem reg_r31 (s : State) : s.reg r31 = 0#32 := rfl

/-- A write to register 31 changes no state (rule R21). -/
@[simp] theorem setReg_r31 (s : State) (v : Word) : s.setReg r31 v = s := rfl

theorem lt_31_of_ne_r31 {r : Reg} (h : r ≠ r31) : r.val < 31 := by
  have := r.isLt
  have : r.val ≠ 31 := fun e => h (Fin.ext e)
  omega

/-- A register other than register 31 reads the value last written (rule R21). -/
theorem reg_setReg_same (s : State) (r : Reg) (v : Word) (h : r ≠ r31) : (s.setReg r v).reg r = v := by
  simp [State.reg, State.setReg, lt_31_of_ne_r31 h]

/-- What the written register reads, register 31 included. -/
theorem reg_setReg_self (s : State) (r : Reg) (v : Word) : (s.setReg r v).reg r = if r = r31 then 0#32 else v := by
  by_cases h : r = r31
  · subst h; rfl
  · rw [if_neg h, reg_setReg_same s r v h]

/-- A write to one register leaves every other register alone (rule R21). -/
theorem reg_setReg_other (s : State) (r q : Reg) (v : Word) (h : q ≠ r) : (s.setReg r v).reg q = s.reg q := by
  have h' : r.val ≠ q.val := fun e => h (Fin.ext e.symm)
  unfold State.setReg
  split
  · unfold State.reg
    split
    · simp only [Vector.getElem_set, h', if_false]
    · rfl
  · rfl

/-! ### `writeWord` -/

@[simp] theorem writeWord_regs (s : State) (a v : Word) : (s.writeWord a v).regs = s.regs := rfl
@[simp] theorem writeWord_pc (s : State) (a v : Word) : (s.writeWord a v).pc = s.pc := rfl
@[simp] theorem writeWord_mem (s : State) (a v : Word) :
    (s.writeWord a v).mem = Machine.writeWord s.platform.byteOrder s.mem a v := rfl
@[simp] theorem writeWord_pending (s : State) (a v : Word) : (s.writeWord a v).pending = s.pending := rfl
@[simp] theorem writeWord_platform (s : State) (a v : Word) : (s.writeWord a v).platform = s.platform := rfl
@[simp] theorem writeWord_inputs (s : State) (a v : Word) : (s.writeWord a v).inputs = s.inputs := rfl
@[simp] theorem writeWord_draws (s : State) (a v : Word) : (s.writeWord a v).draws = s.draws := rfl
@[simp] theorem writeWord_reg (s : State) (a v : Word) (r : Reg) : (s.writeWord a v).reg r = s.reg r := rfl

/-! ### `writeResult` -/

@[simp] theorem writeResult_pc (s : State) (r : Reg) (v : Word) : (s.writeResult r v).pc = nextPc s.pc := by
  simp [State.writeResult]
@[simp] theorem writeResult_mem (s : State) (r : Reg) (v : Word) : (s.writeResult r v).mem = s.mem := by
  simp [State.writeResult]
@[simp] theorem writeResult_pending (s : State) (r : Reg) (v : Word) : (s.writeResult r v).pending = s.pending := by
  simp [State.writeResult]
@[simp] theorem writeResult_platform (s : State) (r : Reg) (v : Word) : (s.writeResult r v).platform = s.platform := by
  simp [State.writeResult]
@[simp] theorem writeResult_inputs (s : State) (r : Reg) (v : Word) : (s.writeResult r v).inputs = s.inputs := by
  simp [State.writeResult]
@[simp] theorem writeResult_draws (s : State) (r : Reg) (v : Word) : (s.writeResult r v).draws = s.draws := by
  simp [State.writeResult]

/-! ### `takeException` -/

@[simp] theorem takeException_pc (vec : Word) (s : State) : (takeException vec s).pc = vectorPc vec := rfl
@[simp] theorem takeException_mem (vec : Word) (s : State) : (takeException vec s).mem = s.mem := by
  simp [takeException]
@[simp] theorem takeException_pending (vec : Word) (s : State) : (takeException vec s).pending = s.pending := by
  simp [takeException]
@[simp] theorem takeException_platform (vec : Word) (s : State) : (takeException vec s).platform = s.platform := by
  simp [takeException]
@[simp] theorem takeException_inputs (vec : Word) (s : State) : (takeException vec s).inputs = s.inputs := by
  simp [takeException]
@[simp] theorem takeException_draws (vec : Word) (s : State) : (takeException vec s).draws = s.draws := by
  simp [takeException]

/-! ### `afterEnvironment`, `reassertReset` -/

@[simp] theorem afterEnvironment_regs (s : State) : s.afterEnvironment.regs = s.regs := rfl
@[simp] theorem afterEnvironment_pc (s : State) : s.afterEnvironment.pc = s.pc := rfl
@[simp] theorem afterEnvironment_mem (s : State) : s.afterEnvironment.mem = s.mem := rfl
@[simp] theorem afterEnvironment_pending (s : State) :
    s.afterEnvironment.pending = updatePending s.platform s.input s.pending := rfl
@[simp] theorem afterEnvironment_platform (s : State) : s.afterEnvironment.platform = s.platform := rfl
@[simp] theorem afterEnvironment_inputs (s : State) : s.afterEnvironment.inputs = s.inputs.tail := rfl
@[simp] theorem afterEnvironment_draws (s : State) : s.afterEnvironment.draws = s.draws := rfl
@[simp] theorem afterEnvironment_reg (s : State) (r : Reg) : s.afterEnvironment.reg r = s.reg r := rfl
@[simp] theorem afterEnvironment_isSupervisor (s : State) : s.afterEnvironment.isSupervisor = s.isSupervisor := rfl
@[simp] theorem afterEnvironment_readWord (s : State) (a : Word) : s.afterEnvironment.readWord a = s.readWord a := rfl

@[simp] theorem reassertReset_pc (s : State) : (reassertReset s).pc = resetPc := by simp only [reassertReset]
@[simp] theorem reassertReset_mem (s : State) : (reassertReset s).mem = s.mem := by simp only [reassertReset]
@[simp] theorem reassertReset_pending (s : State) : (reassertReset s).pending = s.pending := by simp only [reassertReset]
@[simp] theorem reassertReset_platform (s : State) : (reassertReset s).platform = s.platform := by simp only [reassertReset]
@[simp] theorem reassertReset_inputs (s : State) : (reassertReset s).inputs = s.inputs := by simp only [reassertReset]
@[simp] theorem reassertReset_draws (s : State) : (reassertReset s).draws = s.draws + 1 := by simp only [reassertReset]

/-! ### `placeWord`, `withFetchWord` -/

@[simp] theorem placeWord_regs (s : State) (w : Word) : (placeWord s w).regs = s.regs := by simp [placeWord]
@[simp] theorem placeWord_pc (s : State) (w : Word) : (placeWord s w).pc = s.pc := by simp [placeWord]
@[simp] theorem placeWord_mem (s : State) (w : Word) :
    (placeWord s w).mem = writeWord s.platform.byteOrder s.mem (fetchAddress s.pc) w := by simp [placeWord]
@[simp] theorem placeWord_pending (s : State) (w : Word) : (placeWord s w).pending = s.pending := by
  simp [placeWord]
@[simp] theorem placeWord_platform (s : State) (w : Word) : (placeWord s w).platform = s.platform := by
  simp [placeWord]
@[simp] theorem placeWord_inputs (s : State) (w : Word) : (placeWord s w).inputs = [] := by simp [placeWord]
@[simp] theorem placeWord_draws (s : State) (w : Word) : (placeWord s w).draws = s.draws := by simp [placeWord]

end Sys2Proof.Machine
end

