-- ==== Sys2Proof/Laws/Memory.lean ====
section
/-! SUPPORT. The laws of memory: a read after a write, and that every operation keeps the canonical form. -/

namespace Sys2Proof.Machine

/-! ### Bytes -/

theorem readByte_consCell_other (a x : Nat) (b : Byte) (m : Memory) (h : x ≠ a) :
    readByte (consCell a b m) x = readByte m x := by
  unfold consCell
  split
  · rfl
  · simp [readByte, h]

/-- A write leaves every other byte alone, whatever the memory. -/
theorem readByte_writeByte_other (m : Memory) (a x : Nat) (b : Byte) (h : x ≠ a) :
    readByte (writeByte m a b) x = readByte m x := by
  induction m with
  | nil => simpa [writeByte] using readByte_consCell_other a x b [] h
  | cons cell rest ih =>
    obtain ⟨y, c⟩ := cell
    unfold writeByte
    split
    · exact readByte_consCell_other a x b _ h
    · split
      next hay =>
        subst hay
        rw [readByte_consCell_other _ _ _ _ h]
        simp [readByte, h]
      next => simp [readByte, ih]

theorem canonicalFrom_mono {low low' : Nat} (h : low' ≤ low) (m : Memory) (hm : canonicalFrom low m = true) :
    canonicalFrom low' m = true := by
  cases m with
  | nil => rfl
  | cons cell rest =>
    simp only [canonicalFrom, Bool.and_eq_true, decide_eq_true_eq] at hm ⊢
    exact ⟨⟨⟨by omega, hm.1.1.2⟩, hm.1.2⟩, hm.2⟩

/-- Below its first address a canonical memory reads as unlisted. -/
theorem readByte_below (m : Memory) (low a : Nat) (hm : canonicalFrom low m = true) (h : a < low) :
    readByte m a = unlistedByte := by
  induction m generalizing low with
  | nil => rfl
  | cons cell rest ih =>
    simp only [canonicalFrom, Bool.and_eq_true, decide_eq_true_eq] at hm
    have hne : a ≠ cell.1 := by omega
    simp only [readByte, hne, if_false]
    exact ih (cell.1 + 1) hm.2 (by omega)

theorem readByte_consCell_same (a : Nat) (b : Byte) (m : Memory) (hm : canonicalFrom (a + 1) m = true) :
    readByte (consCell a b m) a = b := by
  unfold consCell
  split
  next h => rw [h]; exact readByte_below m _ a hm (by omega)
  next => simp [readByte]

/-- A write is read back, in a memory of canonical form. -/
theorem readByte_writeByte_same (m : Memory) (low a : Nat) (b : Byte) (hm : canonicalFrom low m = true) :
    readByte (writeByte m a b) a = b := by
  induction m generalizing low with
  | nil => exact readByte_consCell_same a b [] rfl
  | cons cell rest ih =>
    obtain ⟨y, c⟩ := cell
    simp only [canonicalFrom, Bool.and_eq_true, decide_eq_true_eq] at hm
    obtain ⟨⟨⟨h1, h2⟩, h3⟩, h4⟩ := hm
    unfold writeByte
    split
    next hay =>
      refine readByte_consCell_same a b _ ?_
      simp only [canonicalFrom, Bool.and_eq_true, decide_eq_true_eq]
      exact ⟨⟨⟨by omega, h2⟩, h3⟩, h4⟩
    next =>
      split
      next hay => subst hay; exact readByte_consCell_same a b rest h4
      next h => simp only [readByte, h, if_false]; exact ih (y + 1) h4

theorem canonicalFrom_consCell (low a : Nat) (b : Byte) (m : Memory) (hl : low ≤ a) (ha : a < 2 ^ 32)
    (hm : canonicalFrom (a + 1) m = true) : canonicalFrom low (consCell a b m) = true := by
  unfold consCell
  split
  · exact canonicalFrom_mono (by omega) m hm
  next h =>
    simp only [canonicalFrom, Bool.and_eq_true, decide_eq_true_eq]
    exact ⟨⟨⟨hl, ha⟩, h⟩, hm⟩

/-- A write inside the address space keeps the canonical form. -/
theorem canonicalFrom_writeByte (m : Memory) (low a : Nat) (b : Byte) (hl : low ≤ a) (ha : a < 2 ^ 32)
    (hm : canonicalFrom low m = true) : canonicalFrom low (writeByte m a b) = true := by
  induction m generalizing low with
  | nil => exact canonicalFrom_consCell low a b [] hl ha rfl
  | cons cell rest ih =>
    obtain ⟨y, c⟩ := cell
    simp only [canonicalFrom, Bool.and_eq_true, decide_eq_true_eq] at hm
    obtain ⟨⟨⟨h1, h2⟩, h3⟩, h4⟩ := hm
    unfold writeByte
    split
    next hay =>
      refine canonicalFrom_consCell low a b _ hl ha ?_
      simp only [canonicalFrom, Bool.and_eq_true, decide_eq_true_eq]
      exact ⟨⟨⟨by omega, h2⟩, h3⟩, h4⟩
    next =>
      split
      next hay => subst hay; exact canonicalFrom_consCell low a b rest hl ha h4
      next =>
        simp only [canonicalFrom, Bool.and_eq_true, decide_eq_true_eq]
        exact ⟨⟨⟨h1, h2⟩, h3⟩, ih (y + 1) (by omega) h4⟩

/-- The memory of the reset state has the canonical form. -/
theorem reset_mem_wf : State.reset.mem.wf = true := rfl

/-- Writing a byte keeps the canonical form. -/
theorem writeByte_wf (m : Memory) (a : Nat) (b : Byte) (ha : a < 2 ^ 32) (hm : m.wf = true) :
    Memory.wf (writeByte m a b) = true :=
  canonicalFrom_writeByte m 0 a b (Nat.zero_le a) ha hm

/-! ### Words -/

/-- Writing a word whose bytes lie in the address space keeps the canonical form. -/
theorem writeWord_wf (o : ByteOrder) (m : Memory) (a v : Word) (ha : a.toNat + 3 < 2 ^ 32) (hm : m.wf = true) :
    Memory.wf (writeWord o m a v) = true := by
  unfold writeWord
  exact writeByte_wf _ _ _ ha (writeByte_wf _ _ _ (by omega) (writeByte_wf _ _ _ (by omega)
    (writeByte_wf _ _ _ (by omega) hm)))

/-- Writing a word leaves every byte outside its four alone. -/
theorem readByte_writeWord_other (o : ByteOrder) (m : Memory) (a v : Word) (x : Nat)
    (h : ¬ (a.toNat ≤ x ∧ x < a.toNat + 4)) : readByte (writeWord o m a v) x = readByte m x := by
  unfold writeWord
  rw [readByte_writeByte_other _ _ _ _ (by omega), readByte_writeByte_other _ _ _ _ (by omega),
    readByte_writeByte_other _ _ _ _ (by omega), readByte_writeByte_other _ _ _ _ (by omega)]

/-- Writing a word writes its four bytes in the byte order. -/
theorem readByte_writeWord_same (o : ByteOrder) (m : Memory) (a v : Word) (k : Nat) (hk : k < 4)
    (ha : a.toNat + 3 < 2 ^ 32) (hm : m.wf = true) : readByte (writeWord o m a v) (a.toNat + k) = byteOfWord o v k := by
  have w0 := writeByte_wf m a.toNat (byteOfWord o v 0) (by omega) hm
  have w1 := writeByte_wf _ (a.toNat + 1) (byteOfWord o v 1) (by omega) w0
  have w2 := writeByte_wf _ (a.toNat + 2) (byteOfWord o v 2) (by omega) w1
  unfold writeWord
  match k, hk with
  | 0, _ =>
    rw [readByte_writeByte_other _ _ _ _ (by omega), readByte_writeByte_other _ _ _ _ (by omega),
      readByte_writeByte_other _ _ _ _ (by omega)]
    exact readByte_writeByte_same m 0 _ _ hm
  | 1, _ =>
    rw [readByte_writeByte_other _ _ _ _ (by omega), readByte_writeByte_other _ _ _ _ (by omega)]
    exact readByte_writeByte_same _ 0 _ _ w0
  | 2, _ =>
    rw [readByte_writeByte_other _ _ _ _ (by omega)]
    exact readByte_writeByte_same _ 0 _ _ w1
  | 3, _ => exact readByte_writeByte_same _ 0 _ _ w2

/-- The bytes of a word make the word, in either byte order. -/
theorem wordOfBytes_byteOfWord (o : ByteOrder) (w : Word) :
    wordOfBytes o (byteOfWord o w 0) (byteOfWord o w 1) (byteOfWord o w 2) (byteOfWord o w 3) = w := by
  cases o <;>
  · refine BitVec.eq_of_getLsbD_eq fun i hi => ?_
    simp only [wordOfBytes, byteOfWord, BitVec.getLsbD_append, BitVec.getLsbD_extractLsb']
    split_ifs <;> rw [decide_eq_true (by omega), Bool.true_and] <;> congr 1 <;> omega

/-- A read after a write to the same word gives the value written (rules R54, R62). -/
theorem readWord_writeWord_same (o : ByteOrder) (m : Memory) (a v : Word) (ha : a.toNat + 3 < 2 ^ 32)
    (hm : m.wf = true) : readWord o (writeWord o m a v) a = v := by
  unfold readWord
  rw [readByte_writeWord_same o m a v 1 (by omega) ha hm, readByte_writeWord_same o m a v 2 (by omega) ha hm,
    readByte_writeWord_same o m a v 3 (by omega) ha hm]
  have h0 := readByte_writeWord_same o m a v 0 (by omega) ha hm
  rw [Nat.add_zero] at h0
  rw [h0, wordOfBytes_byteOfWord]

/-- A read of another aligned word is not changed by a write. -/
theorem readWord_writeWord_other (o : ByteOrder) (m : Memory) (a x v : Word)
    (h : x.toNat + 3 < a.toNat ∨ a.toNat + 3 < x.toNat) : readWord o (writeWord o m a v) x = readWord o m x := by
  unfold readWord
  rw [readByte_writeWord_other _ _ _ _ _ (by omega), readByte_writeWord_other _ _ _ _ _ (by omega),
    readByte_writeWord_other _ _ _ _ _ (by omega), readByte_writeWord_other _ _ _ _ _ (by omega)]

/-! ### Addresses -/

/-- An address inside `MEM_REGION` lies in the address space with all its four bytes. -/
theorem wordInRegion_lt (p : Platform) (a : Word) (h : wordInRegion p a = true) : a.toNat + 3 < 2 ^ 32 := by
  simp only [wordInRegion, Bool.and_eq_true, byteInRegion, List.any_eq_true, decide_eq_true_eq] at h
  obtain ⟨_, r, _, _, h3⟩ := h
  have := r.last.isLt
  omega

/-- What `regionAddress` answers: the address it was given, inside `MEM_REGION`. -/
theorem regionAddress_ok {p : Platform} {a b : Word} (h : regionAddress p a = .ok b) :
    b = a ∧ wordInRegion p a = true := by
  unfold regionAddress at h
  split at h
  · exact ⟨by cases h; rfl, ‹_›⟩
  · cases h

/-- What `dataAddress` answers: the effective address, its low two bits masked where it is misaligned, inside
`MEM_REGION`. -/
theorem dataAddress_ok {p : Platform} {ea a : Word} (h : dataAddress p ea = .ok a) :
    (a = ea ∧ isAligned ea = true ∨ a = alignWord ea ∧ isAligned ea = false ∧ p.misalignedData = .maskLowTwoBits) ∧
    wordInRegion p a = true := by
  unfold dataAddress at h
  split at h
  next ha =>
    obtain ⟨rfl, hr⟩ := regionAddress_ok h
    exact ⟨.inl ⟨rfl, ha⟩, hr⟩
  next ha =>
    split at h
    next hm =>
      obtain ⟨rfl, hr⟩ := regionAddress_ok h
      exact ⟨.inr ⟨rfl, by simpa using ha, hm⟩, hr⟩
    next => cases h

/-- An aligned effective address inside `MEM_REGION` is accessed as it stands. -/
theorem dataAddress_aligned {p : Platform} {ea : Word} (ha : isAligned ea = true) (hr : wordInRegion p ea = true) :
    dataAddress p ea = .ok ea := by
  simp [dataAddress, regionAddress, ha, hr]

end Sys2Proof.Machine
end

