-- ==== Sys2Proof/Laws/Pc.lean ====
section
/-! SUPPORT. The laws of the program counter: what each address computation does to the Supervisor bit, to the 31 address
bits and to alignment, and what the address of a memory access is. -/

namespace Sys2Proof.Machine

/-! ### A Supervisor bit on top of 31 address bits -/

theorem append_toNat (b : BitVec 1) (v : BitVec 31) : ((b ++ v : BitVec 32)).toNat = b.toNat * 2 ^ 31 + v.toNat := by
  rw [BitVec.toNat_append, Nat.shiftLeft_eq, Nat.mul_comm, ← Nat.two_pow_add_eq_or_of_lt v.isLt]

theorem append_supervisor (b : BitVec 1) (v : BitVec 31) : ((b ++ v : BitVec 32)).getLsbD 31 = b.getLsbD 0 := by
  rw [BitVec.getLsbD_append, if_neg (by omega)]

theorem supervisorBit_getLsbD (p : Word) : (p.extractLsb' 31 1).getLsbD 0 = p.getLsbD 31 := by
  rw [BitVec.getLsbD_extractLsb']; simp

theorem supervisorBit_toNat (p : Word) : (p.extractLsb' 31 1).toNat = p.toNat / 2 ^ 31 := by
  have := p.isLt
  rw [BitVec.extractLsb'_toNat, Nat.shiftRight_eq_div_pow]
  omega

theorem addressBits_toNat (p : Word) : (p.extractLsb' 0 31).toNat = p.toNat % 2 ^ 31 := by
  rw [BitVec.extractLsb'_toNat, Nat.shiftRight_zero]

theorem supervisor_iff (p : Word) : p.getLsbD 31 = true ↔ 2 ^ 31 ≤ p.toNat := by
  have := p.isLt
  have h : p.getLsbD 31 = p.toNat.testBit 31 := rfl
  rw [h, Nat.testBit_eq_decide_div_mod_eq, decide_eq_true_eq]
  omega

theorem isAligned_iff (v : Word) : isAligned v = true ↔ v.toNat % 4 = 0 := by
  simp only [isAligned, beq_iff_eq, ← BitVec.toNat_inj, BitVec.extractLsb'_toNat, Nat.shiftRight_zero]
  simp

/-- Bits 31, 30:2 and two zeroes: the shape of every target but the sequential and relative ones. -/
theorem target_toNat (b : BitVec 1) (v : BitVec 29) :
    ((b ++ v ++ 0#2 : BitVec 32)).toNat = b.toNat * 2 ^ 31 + v.toNat * 4 := by
  rw [BitVec.toNat_append, BitVec.toNat_append, Nat.shiftLeft_eq, Nat.shiftLeft_eq, Nat.mul_comm b.toNat,
    ← Nat.two_pow_add_eq_or_of_lt v.isLt, BitVec.toNat_ofNat, Nat.zero_mod, Nat.or_zero]
  omega

theorem target_aligned (b : BitVec 1) (v : BitVec 29) : isAligned (b ++ v ++ 0#2 : BitVec 32) = true := by
  rw [isAligned_iff, target_toNat]; omega

theorem target_supervisor (b : BitVec 1) (v : BitVec 29) :
    ((b ++ v ++ 0#2 : BitVec 32)).getLsbD 31 = b.getLsbD 0 := by
  rw [BitVec.getLsbD_append, if_neg (by omega), BitVec.getLsbD_append, if_neg (by omega)]

theorem wordBits_toNat (v : Word) : (v.extractLsb' 2 29).toNat = v.toNat % 2 ^ 31 / 4 := by
  rw [BitVec.extractLsb'_toNat, Nat.shiftRight_eq_div_pow]
  omega

/-! ### The updated PC and relative targets (rules R26, R27) -/

theorem nextPc_toNat (p : Word) : (nextPc p).toNat = p.toNat / 2 ^ 31 * 2 ^ 31 + (p.toNat % 2 ^ 31 + 4) % 2 ^ 31 := by
  rw [nextPc, append_toNat, supervisorBit_toNat, BitVec.toNat_add, addressBits_toNat]
  rfl

theorem nextPc_supervisor (p : Word) : (nextPc p).getLsbD 31 = p.getLsbD 31 := by
  rw [nextPc, append_supervisor, supervisorBit_getLsbD]

theorem nextPc_aligned {p : Word} (h : isAligned p = true) : isAligned (nextPc p) = true := by
  rw [isAligned_iff] at *
  rw [nextPc_toNat]
  omega

theorem relTarget_supervisor (p : Word) (lit : Int) : (relTarget p lit).getLsbD 31 = p.getLsbD 31 := by
  rw [relTarget, append_supervisor, supervisorBit_getLsbD]

/-- The 31 address bits moved by four times the literal. -/
theorem relativeBits_toNat (p : Word) (lit : Int) :
    ((p.extractLsb' 0 31 + BitVec.ofInt 31 (4 * lit)).toNat : Int) = ((p.toNat % 2 ^ 31 : Nat) + 4 * lit) % 2 ^ 31 := by
  rw [BitVec.toNat_add, addressBits_toNat, BitVec.toNat_ofInt]
  have : (0 : Int) ≤ (4 * lit) % (2 ^ 31 : Nat) := Int.emod_nonneg _ (by decide)
  rw [Int.natCast_emod, Nat.cast_add, Int.toNat_of_nonneg this]
  omega

theorem relTarget_toNat (p : Word) (lit : Int) :
    ((relTarget p lit).toNat : Int) =
      (p.toNat / 2 ^ 31 * 2 ^ 31 : Nat) + ((p.toNat % 2 ^ 31 : Nat) + 4 * lit) % 2 ^ 31 := by
  rw [relTarget, append_toNat, supervisorBit_toNat, Nat.cast_add, relativeBits_toNat]

theorem relTarget_aligned {p : Word} (h : isAligned p = true) (lit : Int) : isAligned (relTarget p lit) = true := by
  rw [isAligned_iff] at *
  have := relTarget_toNat p lit
  omega

/-! ### Jumps and vectors (rules R28, R29) -/

theorem jumpPc_aligned (p t : Word) : isAligned (jumpPc p t) = true := target_aligned _ _

theorem jumpPc_supervisor (p t : Word) : (jumpPc p t).getLsbD 31 = (p.getLsbD 31 && t.getLsbD 31) := by
  rw [jumpPc, target_supervisor, BitVec.getLsbD_and, supervisorBit_getLsbD, supervisorBit_getLsbD]

theorem jumpPc_address (p t : Word) : (jumpPc p t).toNat % 2 ^ 31 = t.toNat % 2 ^ 31 / 4 * 4 := by
  rw [jumpPc, target_toNat, wordBits_toNat]
  omega

theorem vectorPc_aligned (v : Word) : isAligned (vectorPc v) = true := target_aligned _ _

theorem vectorPc_supervisor (v : Word) : (vectorPc v).getLsbD 31 = true := by
  rw [vectorPc, target_supervisor]; rfl

theorem vectorPc_toNat (v : Word) : (vectorPc v).toNat = 2 ^ 31 + v.toNat % 2 ^ 31 / 4 * 4 := by
  rw [vectorPc, target_toNat, wordBits_toNat]; rfl

/-! ### Addresses of memory accesses (rules R25, R57, R191) -/

theorem fetchAddress_toNat (p : Word) : (fetchAddress p).toNat = p.toNat % 2 ^ 31 / 4 * 4 := by
  rw [fetchAddress, target_toNat, wordBits_toNat]
  simp

theorem fetchAddress_aligned (p : Word) : isAligned (fetchAddress p) = true := target_aligned _ _

theorem ldrAddress_toNat (npc : Word) (lit : Int) :
    ((ldrAddress npc lit).toNat : Int) = ((npc.toNat % 2 ^ 31 : Nat) + 4 * lit) % 2 ^ 31 := by
  rw [ldrAddress, append_toNat, Nat.cast_add, relativeBits_toNat]
  simp

theorem ldrAddress_aligned {npc : Word} (h : isAligned npc = true) (lit : Int) : isAligned (ldrAddress npc lit) = true := by
  rw [isAligned_iff] at *
  have := ldrAddress_toNat npc lit
  omega

theorem alignWord_toNat (v : Word) : (alignWord v).toNat = v.toNat / 4 * 4 := by
  have := v.isLt
  rw [alignWord, BitVec.toNat_append, Nat.shiftLeft_eq, BitVec.extractLsb'_toNat, Nat.shiftRight_eq_div_pow]
  simp
  omega

theorem alignWord_aligned (v : Word) : isAligned (alignWord v) = true := by
  rw [isAligned_iff, alignWord_toNat]; omega

end Sys2Proof.Machine
end

