-- ==== Sys2Proof/Laws/Ops.lean ====
section
/-! SUPPORT. One lemma for each shared operation: all it can do. -/

namespace Sys2Proof.Machine

/-! ### Writing a result, linking -/

theorem sameSurroundings_refl (s : State) : SameSurroundings s s := ⟨rfl, rfl, rfl, rfl⟩

/-- A register and the PC written, and nothing else. -/
theorem setReg_setPc_writesOnly (s : State) (rc : Reg) (v pc : Word) :
    WritesOnly s ((s.setReg rc v).setPc pc) rc v pc where
  destination := by rw [setPc_reg]; exact reg_setReg_self s rc v
  others r h := by rw [setPc_reg]; exact reg_setReg_other s rc r v h
  pc := rfl
  memory a := by simp
  surroundings := ⟨by simp, by simp, by simp, by simp⟩

theorem writeResult_eq (s : State) (rc : Reg) (v : Word) :
    s.writeResult rc v = (s.setReg rc v).setPc (nextPc s.pc) := by
  simp [State.writeResult, State.advance]

theorem writeResult_writesOnly (s : State) (rc : Reg) (v : Word) :
    WritesOnly s (s.writeResult rc v) rc v (nextPc s.pc) := by
  rw [writeResult_eq]; exact setReg_setPc_writesOnly s rc v _

/-- What the Operate class does. -/
theorem operate_writesOnly (f : Word → Word → Word) (ra rb rc : Reg) (s : State) :
    ∃ t, operate f ra rb rc s = .next t ∧ WritesOnly s t rc (f (s.reg ra) (s.reg rb)) (nextPc s.pc) :=
  ⟨_, rfl, writeResult_writesOnly s rc _⟩

/-- What the OPC class does. -/
theorem operateLiteral_writesOnly (f : Word → Word → Word) (ra : Reg) (lit : Int) (rc : Reg) (s : State) :
    ∃ t, operateLiteral f ra lit rc s = .next t ∧ WritesOnly s t rc (f (s.reg ra) (sext32 lit)) (nextPc s.pc) :=
  ⟨_, rfl, writeResult_writesOnly s rc _⟩

/-- What a control transfer with link does. -/
theorem linkAndGo_writesOnly (rc : Reg) (target : Word) (s : State) :
    ∃ t, linkAndGo rc target s = .next t ∧ WritesOnly s t rc (nextPc s.pc) target :=
  ⟨_, rfl, setReg_setPc_writesOnly s rc _ target⟩

/-! ### Optional opcodes, exceptions -/

theorem ifProvided_true {op : OptionalOpcode} {s : State} (h : s.platform.implOptional.contains op = true)
    (o : StepOutcome) : ifProvided op s o = o := by
  rw [ifProvided, if_pos h]

theorem ifProvided_false {op : OptionalOpcode} {s : State} (h : s.platform.implOptional.contains op = false)
    (o : StepOutcome) : ifProvided op s o = raiseIllegalInstruction s := by
  rw [ifProvided, h]; rfl

/-- An instruction the platform does not provide is an illegal instruction, whatever its operands (rule R233). -/
theorem exec_not_provided {i : Instr} {s : State} (h : provides s.platform i = false) :
    exec i s = raiseIllegalInstruction s := by
  cases i with
  | mul | div | mulc | divc => exact ifProvided_false h _
  | _ => cases h

/-- `PRIV_SEMANTICS` is the refusal in every value the spec names. -/
@[simp] theorem privilegedOutcome_eq (s : State) : privilegedOutcome s = .refused .privilegedSemantics := by
  unfold privilegedOutcome; cases s.platform.privSemantics; rfl

/-- What taking an exception does (rule R290). -/
theorem takeException_enters (vec : Word) (s : State) : EntersException s (takeException vec s) vec where
  exceptionPointer := by
    rw [takeException, setPc_reg]; exact reg_setReg_same s xp _ (by decide)
  others r h := by rw [takeException, setPc_reg]; exact reg_setReg_other s xp r _ h
  pc := vectorPc_toNat vec
  memory a := by simp
  surroundings := ⟨by simp, by simp, by simp, by simp⟩

/-- `SUPERVISOR_FAULT` is the fault state in every value the spec names. -/
@[simp] theorem supervisorFaultOutcome_eq (s : State) : supervisorFaultOutcome s = .fault .supervisorFault := by
  unfold supervisorFaultOutcome; cases s.platform.supervisorFault; rfl

/-- What raising the illegal instruction exception does (rules R233, R284, R293). -/
theorem raiseIllegalInstruction_raises (s : State) : RaisesIllegalInstruction s (raiseIllegalInstruction s) where
  left h := ⟨_, by rw [raiseIllegalInstruction, h]; rfl, takeException_enters _ s⟩
  right h := by rw [raiseIllegalInstruction, if_pos h, supervisorFaultOutcome_eq]

/-- It answers a next state only in user mode, and then by taking the exception. -/
theorem raiseIllegalInstruction_next {s t : State} (h : raiseIllegalInstruction s = .next t) :
    s.isSupervisor = false ∧ t = takeException s.platform.vecIllop s := by
  unfold raiseIllegalInstruction at h
  rw [supervisorFaultOutcome_eq] at h
  split at h
  · cases h
  next hs => exact ⟨by simpa using hs, by cases h; rfl⟩

/-! ### Loads, stores, quotients -/

/-- A load from an address it may access. -/
theorem loadFrom_writesOnly {address : Except Refusal Word} {a : Word} (h : address = .ok a) (rc : Reg) (s : State) :
    ∃ t, loadFrom address rc s = .next t ∧ WritesOnly s t rc (s.readWord a) (nextPc s.pc) := by
  subst h; exact ⟨_, rfl, writeResult_writesOnly s rc _⟩

/-- A load answers a next state only from an address it may access. -/
theorem loadFrom_next {address : Except Refusal Word} {rc : Reg} {s t : State} (h : loadFrom address rc s = .next t) :
    ∃ a, address = .ok a ∧ t = s.writeResult rc (s.readWord a) := by
  unfold loadFrom at h
  split at h
  · exact ⟨_, rfl, by cases h; rfl⟩
  · cases h

/-- A store to an address it may access. -/
theorem storeTo_storesOnly {address : Except Refusal Word} {a : Word} (h : address = .ok a) (v : Word) (s : State)
    (ha : a.toNat + 3 < 2 ^ 32) (hm : s.mem.wf = true) :
    ∃ t, storeTo address v s = .next t ∧ StoresOnly s t a v := by
  subst h
  exact ⟨_, rfl, {
    stored := fun k hk => by simpa using readByte_writeWord_same s.platform.byteOrder s.mem a v k hk ha hm
    others := fun x hx => by simpa using readByte_writeWord_other s.platform.byteOrder s.mem a v x hx
    registers := fun r => by simp
    pc := rfl
    surroundings := ⟨rfl, rfl, rfl, rfl⟩ }⟩

/-- A store answers a next state only at an address it may access. -/
theorem storeTo_next {address : Except Refusal Word} {v : Word} {s t : State} (h : storeTo address v s = .next t) :
    ∃ a, address = .ok a ∧ t = (s.writeWord a v).advance := by
  unfold storeTo at h
  split at h
  · exact ⟨_, rfl, by cases h; rfl⟩
  · cases h

/-- Writing a quotient. -/
theorem writeQuotient_writesOnly {q : Except Refusal Word} {v : Word} (h : q = .ok v) (rc : Reg) (s : State) :
    ∃ t, writeQuotient q rc s = .next t ∧ WritesOnly s t rc v (nextPc s.pc) := by
  subst h; exact ⟨_, rfl, writeResult_writesOnly s rc _⟩

/-- Writing a quotient answers a next state only where there is one. -/
theorem writeQuotient_next {q : Except Refusal Word} {rc : Reg} {s t : State} (h : writeQuotient q rc s = .next t) :
    ∃ v, q = .ok v ∧ t = s.writeResult rc v := by
  unfold writeQuotient at h
  split at h
  · exact ⟨_, rfl, by cases h; rfl⟩
  · cases h

/-- The quotient by a divisor that is not zero. -/
theorem divide_nonzero (p : Platform) (a : Word) {b : Word} (h : b ≠ 0#32) :
    divide p a b = .ok (quotient p.divReading a b) := by
  rw [divide, if_neg h]

/-! ### The pending kinds (rules R34, R288) -/

theorem mem_insertKind (k j : Nat) (ks : List Nat) : j ∈ insertKind k ks ↔ j = k ∨ j ∈ ks := by
  induction ks with
  | nil => simp [insertKind]
  | cons x rest ih =>
    unfold insertKind
    split
    · simp
    · split
      next h => subst h; simp
      next => simp only [List.mem_cons, ih]; tauto

theorem kindsWf_mono {low low' n : Nat} (h : low' ≤ low) (ks : List Nat) (hk : kindsWf low n ks = true) :
    kindsWf low' n ks = true := by
  cases ks with
  | nil => rfl
  | cons k rest =>
    simp only [kindsWf, Bool.and_eq_true, decide_eq_true_eq] at hk ⊢
    exact ⟨⟨by omega, hk.1.2⟩, hk.2⟩

theorem kindsWf_insertKind (low n k : Nat) (ks : List Nat) (hl : low ≤ k) (hn : k < n)
    (hk : kindsWf low n ks = true) : kindsWf low n (insertKind k ks) = true := by
  induction ks generalizing low with
  | nil => simp [insertKind, kindsWf, hl, hn]
  | cons x rest ih =>
    simp only [kindsWf, Bool.and_eq_true, decide_eq_true_eq] at hk
    obtain ⟨⟨h1, h2⟩, h3⟩ := hk
    unfold insertKind
    split
    next h =>
      simp only [kindsWf, Bool.and_eq_true, decide_eq_true_eq]
      exact ⟨⟨hl, hn⟩, ⟨by omega, h2⟩, h3⟩
    next =>
      split
      next h =>
        simp only [kindsWf, Bool.and_eq_true, decide_eq_true_eq]
        exact ⟨⟨h1, h2⟩, h3⟩
      next =>
        simp only [kindsWf, Bool.and_eq_true, decide_eq_true_eq]
        exact ⟨⟨h1, h2⟩, ih (x + 1) (by omega) h3⟩

theorem kindsWf_filter (low n : Nat) (f : Nat → Bool) (ks : List Nat) (hk : kindsWf low n ks = true) :
    kindsWf low n (ks.filter f) = true := by
  induction ks generalizing low with
  | nil => rfl
  | cons x rest ih =>
    simp only [kindsWf, Bool.and_eq_true, decide_eq_true_eq] at hk
    rw [List.filter_cons]
    split
    · simp only [kindsWf, Bool.and_eq_true, decide_eq_true_eq]
      exact ⟨hk.1, ih (x + 1) hk.2⟩
    · exact kindsWf_mono (by omega) _ (ih (x + 1) hk.2)

/-- What the environment leaves pending is a set of kinds, if it was one before. -/
theorem updatePending_kindsWf (p : Platform) (e : EnvInput) (ks : List Nat)
    (hk : kindsWf 0 p.irqVectors.length ks = true) : kindsWf 0 p.irqVectors.length (updatePending p e ks) = true := by
  unfold updatePending
  generalize hks : ks.filter (fun k => !e.cleared.contains k) = js
  have hj : kindsWf 0 p.irqVectors.length js = true := by rw [← hks]; exact kindsWf_filter _ _ _ _ hk
  clear hks
  induction e.raised generalizing js with
  | nil => exact hj
  | cons k rest ih =>
    refine ih _ ?_
    unfold raiseKind
    split
    next h => exact kindsWf_insertKind 0 _ k js (Nat.zero_le k) h hj
    next => exact hj

/-- Which kinds are pending after the environment has acted (rule R288). -/
theorem mem_updatePending (p : Platform) (e : EnvInput) (ks : List Nat) (k : Nat) :
    k ∈ updatePending p e ks ↔ (k ∈ e.raised ∧ k < p.irqVectors.length) ∨ (k ∈ ks ∧ k ∉ e.cleared) := by
  unfold updatePending
  generalize hks : ks.filter (fun k => !e.cleared.contains k) = js
  have hj : k ∈ js ↔ k ∈ ks ∧ k ∉ e.cleared := by rw [← hks]; simp
  rw [← hj]
  clear hj hks
  induction e.raised generalizing js with
  | nil => simp
  | cons x rest ih =>
    refine (ih (raiseKind p js x)).trans ?_
    rw [List.mem_cons]
    unfold raiseKind
    split
    next h =>
      rw [mem_insertKind]
      constructor
      · rintro (h1 | rfl | h1)
        · exact .inl ⟨.inr h1.1, h1.2⟩
        · exact .inl ⟨.inl rfl, h⟩
        · exact .inr h1
      · rintro (⟨rfl | h1, h2⟩ | h1)
        · exact .inr (.inl rfl)
        · exact .inl ⟨h1, h2⟩
        · exact .inr (.inr h1)
    next h =>
      constructor
      · rintro (h1 | h1)
        · exact .inl ⟨.inr h1.1, h1.2⟩
        · exact .inr h1
      · rintro (⟨rfl | h1, h2⟩ | h1)
        · exact absurd h2 h
        · exact .inl ⟨h1, h2⟩
        · exact .inr h1

/-- When an interrupt is taken: in user mode, of a chosen kind that is pending (rules R286, R287). -/
theorem interruptVector_some {choice : Option Nat} {s : State} {vec : Word}
    (h : interruptVector choice s = some vec) :
    s.isSupervisor = false ∧ ∃ k, choice = some k ∧ k ∈ s.pending ∧ s.platform.irqVectors[k]? = some vec := by
  unfold interruptVector at h
  split at h
  next k =>
    split at h
    next hc =>
      simp only [Bool.and_eq_true, Bool.not_eq_true', List.contains_iff_mem] at hc
      exact ⟨hc.1, k, rfl, hc.2, h⟩
    next => cases h
  next => cases h

/-- In supervisor mode no interrupt is taken (rule R286). -/
theorem interruptVector_supervisor {s : State} (h : s.isSupervisor = true) (choice : Option Nat) :
    interruptVector choice s = none := by
  unfold interruptVector
  split <;> simp [h]

/-- Where `NoInterruptTaken` says so, no interrupt is taken (rules R286, R287). -/
theorem interruptVector_none {s : State} (h : NoInterruptTaken s) :
    interruptVector s.input.take s.afterEnvironment = none := by
  cases hv : interruptVector s.input.take s.afterEnvironment with
  | none => rfl
  | some vec =>
    obtain ⟨hs, k, hk, hp, hvec⟩ := interruptVector_some hv
    obtain ⟨hlt, -⟩ := List.getElem?_eq_some_iff.mp hvec
    rw [afterEnvironment_isSupervisor] at hs
    rw [afterEnvironment_platform] at hlt
    rw [afterEnvironment_pending, mem_updatePending] at hp
    rcases h with h | h
    · rw [h] at hs; cases hs
    · rcases h k hk with hle | ⟨hr, hc⟩
      · omega
      · rcases hp with ⟨hp, -⟩ | ⟨hp, hn⟩
        · exact absurd hp hr
        · rcases hc with hc | hc
          · exact absurd hp hc
          · exact absurd hc hn

end Sys2Proof.Machine
end

