-- ==== Sys2Proof/Laws/Exec.lean ====
section
/-! SUPPORT. All that an instruction can do when it answers a next state. -/

namespace Sys2Proof.Machine

/-- The PC an instruction can leave behind: the next instruction, a relative target, or a jump. -/
def NextPcOf (i : Instr) (s : State) (pc : Word) : Prop :=
  pc = nextPc s.pc ∨ (∃ lit, pc = relTarget (nextPc s.pc) lit) ∨ ∃ ra rc, i = .jmp ra rc ∧ pc = jumpPc s.pc (s.reg ra)

/-- The three ways of an instruction: a register and the PC written; a word stored; the illegal instruction exception
taken. -/
theorem exec_next {i : Instr} {s t : State} (h : exec i s = .next t) :
    (∃ rc v pc, destination? i = some rc ∧ NextPcOf i s pc ∧ t = (s.setReg rc v).setPc pc) ∨
    (∃ rc lit ra a, i = .st rc lit ra ∧ dataAddress s.platform (effectiveAddress (s.reg ra) lit) = .ok a ∧
      t = (s.writeWord a (s.reg rc)).advance) ∨
    (s.isSupervisor = false ∧ t = takeException s.platform.vecIllop s) := by
  have result : ∀ (rc : Reg) (v : Word), destination? i = some rc → t = s.writeResult rc v →
      ∃ rc v pc, destination? i = some rc ∧ NextPcOf i s pc ∧ t = (s.setReg rc v).setPc pc :=
    fun rc v hd ht => ⟨rc, v, _, hd, .inl rfl, by rw [ht, writeResult_eq]⟩
  have provided : ∀ (op : OptionalOpcode) (o : StepOutcome), ifProvided op s o = .next t →
      o = .next t ∨ (s.isSupervisor = false ∧ t = takeException s.platform.vecIllop s) := by
    intro op o ho
    unfold ifProvided at ho
    split at ho
    · exact .inl ho
    · exact .inr (raiseIllegalInstruction_next ho)
  cases i with
  | mul | mulc =>
    rcases provided _ _ h with ho | he
    · exact .inl (result _ _ rfl (Host.Outcome.next.inj ho).symm)
    · exact .inr (.inr he)
  | div | divc =>
    rcases provided _ _ h with ho | he
    · obtain ⟨v, -, ht⟩ := writeQuotient_next ho
      exact .inl (result _ _ rfl ht)
    · exact .inr (.inr he)
  | ld | ldr =>
    obtain ⟨a, -, ht⟩ := loadFrom_next h
    exact .inl (result _ _ rfl ht)
  | st rc lit ra =>
    obtain ⟨a, ha, ht⟩ := storeTo_next h
    exact .inr (.inl ⟨rc, lit, ra, a, rfl, ha, ht⟩)
  | beq ra lit rc | bne ra lit rc =>
    refine .inl ⟨rc, _, _, rfl, ?_, (Host.Outcome.next.inj h).symm⟩
    split
    · exact .inr (.inl ⟨lit, rfl⟩)
    · exact .inl rfl
  | jmp ra rc => exact .inl ⟨rc, _, _, rfl, .inr (.inr ⟨ra, rc, rfl, rfl⟩), (Host.Outcome.next.inj h).symm⟩
  | privileged form =>
    change execPrivileged form s = .next t at h
    unfold execPrivileged at h
    rw [privilegedOutcome_eq] at h
    split at h
    · cases h
    · exact .inr (.inr (raiseIllegalInstruction_next h))
  | _ => exact .inl (result _ _ rfl (Host.Outcome.next.inj h).symm)

/-- Every PC an instruction leaves behind is a multiple of 4 where the PC was (rules R26 to R28). -/
theorem nextPcOf_aligned {i : Instr} {s : State} {pc : Word} (h : NextPcOf i s pc) (hs : isAligned s.pc = true) :
    isAligned pc = true := by
  rcases h with rfl | ⟨lit, rfl⟩ | ⟨ra, rc, -, rfl⟩
  · exact nextPc_aligned hs
  · exact relTarget_aligned (nextPc_aligned hs) lit
  · exact jumpPc_aligned _ _

/-- Only JMP changes the Supervisor bit, and only by clearing it (rule R282). -/
theorem nextPcOf_supervisor {i : Instr} {s : State} {pc : Word} (h : NextPcOf i s pc) :
    pc.getLsbD 31 = s.isSupervisor ∨
      ∃ ra rc, i = .jmp ra rc ∧ pc.getLsbD 31 = (s.isSupervisor && (s.reg ra).getLsbD 31) := by
  rcases h with rfl | ⟨lit, rfl⟩ | ⟨ra, rc, hi, rfl⟩
  · exact .inl (nextPc_supervisor _)
  · exact .inl (by rw [relTarget_supervisor, nextPc_supervisor]; rfl)
  · exact .inr ⟨ra, rc, hi, jumpPc_supervisor _ _⟩

end Sys2Proof.Machine
end

