-- ==== Sys2Proof/Laws/PerInstr.lean ====
section
/-! SUPPORT. Statements about every instruction as syntax, one lemma for each constructor. -/

namespace Sys2Proof.Laws.OpcodeField

/-- The opcode of an instruction in the list of rule R86, 0x00 for the privileged class (rule R89). -/
def opcodeOf : Instr → BitVec 6
  | .add _ _ _ => 0x20#6
  | .addc _ _ _ => 0x30#6
  | .and _ _ _ => 0x28#6
  | .andc _ _ _ => 0x38#6
  | .beq _ _ _ => 0x1C#6
  | .bne _ _ _ => 0x1D#6
  | .cmpeq _ _ _ => 0x24#6
  | .cmpeqc _ _ _ => 0x34#6
  | .cmple _ _ _ => 0x26#6
  | .cmplec _ _ _ => 0x36#6
  | .cmplt _ _ _ => 0x25#6
  | .cmpltc _ _ _ => 0x35#6
  | .div _ _ _ => 0x23#6
  | .divc _ _ _ => 0x33#6
  | .jmp _ _ => 0x1B#6
  | .ld _ _ _ => 0x18#6
  | .ldr _ _ => 0x1F#6
  | .mul _ _ _ => 0x22#6
  | .mulc _ _ _ => 0x32#6
  | .or _ _ _ => 0x29#6
  | .orc _ _ _ => 0x39#6
  | .shl _ _ _ => 0x2C#6
  | .shlc _ _ _ => 0x3C#6
  | .shr _ _ _ => 0x2D#6
  | .shrc _ _ _ => 0x3D#6
  | .sra _ _ _ => 0x2E#6
  | .srac _ _ _ => 0x3E#6
  | .st _ _ _ => 0x19#6
  | .sub _ _ _ => 0x21#6
  | .subc _ _ _ => 0x31#6
  | .xor _ _ _ => 0x2A#6
  | .xorc _ _ _ => 0x3A#6
  | .xnor _ _ _ => 0x2B#6
  | .xnorc _ _ _ => 0x3B#6
  | .privileged _ => 0x00#6

/-- Bits 31:26 of the instruction's word are its opcode in the list of rule R86. -/
def Statement (i : Instr) : Prop := opcodeField (encode i) = opcodeOf i

theorem add (ra rb rc : Reg) : Statement (.add ra rb rc) :=
  opcodeField_operateWord ..

theorem addc (ra : Reg) (lit : Int) (rc : Reg) : Statement (.addc ra lit rc) :=
  opcodeField_literalWord ..

theorem and (ra rb rc : Reg) : Statement (.and ra rb rc) :=
  opcodeField_operateWord ..

theorem andc (ra : Reg) (lit : Int) (rc : Reg) : Statement (.andc ra lit rc) :=
  opcodeField_literalWord ..

theorem beq (ra : Reg) (lit : Int) (rc : Reg) : Statement (.beq ra lit rc) :=
  opcodeField_literalWord ..

theorem bne (ra : Reg) (lit : Int) (rc : Reg) : Statement (.bne ra lit rc) :=
  opcodeField_literalWord ..

theorem cmpeq (ra rb rc : Reg) : Statement (.cmpeq ra rb rc) :=
  opcodeField_operateWord ..

theorem cmpeqc (ra : Reg) (lit : Int) (rc : Reg) : Statement (.cmpeqc ra lit rc) :=
  opcodeField_literalWord ..

theorem cmple (ra rb rc : Reg) : Statement (.cmple ra rb rc) :=
  opcodeField_operateWord ..

theorem cmplec (ra : Reg) (lit : Int) (rc : Reg) : Statement (.cmplec ra lit rc) :=
  opcodeField_literalWord ..

theorem cmplt (ra rb rc : Reg) : Statement (.cmplt ra rb rc) :=
  opcodeField_operateWord ..

theorem cmpltc (ra : Reg) (lit : Int) (rc : Reg) : Statement (.cmpltc ra lit rc) :=
  opcodeField_literalWord ..

theorem div (ra rb rc : Reg) : Statement (.div ra rb rc) :=
  opcodeField_operateWord ..

theorem divc (ra : Reg) (lit : Int) (rc : Reg) : Statement (.divc ra lit rc) :=
  opcodeField_literalWord ..

theorem jmp (ra rc : Reg) : Statement (.jmp ra rc) :=
  opcodeField_literalWord ..

theorem ld (ra : Reg) (lit : Int) (rc : Reg) : Statement (.ld ra lit rc) :=
  opcodeField_literalWord ..

theorem ldr (lit : Int) (rc : Reg) : Statement (.ldr lit rc) :=
  opcodeField_literalWord ..

theorem mul (ra rb rc : Reg) : Statement (.mul ra rb rc) :=
  opcodeField_operateWord ..

theorem mulc (ra : Reg) (lit : Int) (rc : Reg) : Statement (.mulc ra lit rc) :=
  opcodeField_literalWord ..

theorem or (ra rb rc : Reg) : Statement (.or ra rb rc) :=
  opcodeField_operateWord ..

theorem orc (ra : Reg) (lit : Int) (rc : Reg) : Statement (.orc ra lit rc) :=
  opcodeField_literalWord ..

theorem shl (ra rb rc : Reg) : Statement (.shl ra rb rc) :=
  opcodeField_operateWord ..

theorem shlc (ra : Reg) (lit : Int) (rc : Reg) : Statement (.shlc ra lit rc) :=
  opcodeField_literalWord ..

theorem shr (ra rb rc : Reg) : Statement (.shr ra rb rc) :=
  opcodeField_operateWord ..

theorem shrc (ra : Reg) (lit : Int) (rc : Reg) : Statement (.shrc ra lit rc) :=
  opcodeField_literalWord ..

theorem sra (ra rb rc : Reg) : Statement (.sra ra rb rc) :=
  opcodeField_operateWord ..

theorem srac (ra : Reg) (lit : Int) (rc : Reg) : Statement (.srac ra lit rc) :=
  opcodeField_literalWord ..

theorem st (rc : Reg) (lit : Int) (ra : Reg) : Statement (.st rc lit ra) :=
  opcodeField_literalWord ..

theorem sub (ra rb rc : Reg) : Statement (.sub ra rb rc) :=
  opcodeField_operateWord ..

theorem subc (ra : Reg) (lit : Int) (rc : Reg) : Statement (.subc ra lit rc) :=
  opcodeField_literalWord ..

theorem xor (ra rb rc : Reg) : Statement (.xor ra rb rc) :=
  opcodeField_operateWord ..

theorem xorc (ra : Reg) (lit : Int) (rc : Reg) : Statement (.xorc ra lit rc) :=
  opcodeField_literalWord ..

theorem xnor (ra rb rc : Reg) : Statement (.xnor ra rb rc) :=
  opcodeField_operateWord ..

theorem xnorc (ra : Reg) (lit : Int) (rc : Reg) : Statement (.xnorc ra lit rc) :=
  opcodeField_literalWord ..

theorem privileged (form : BitVec 26) : Statement (.privileged form) :=
  opcodeField_privilegedWord _

end Sys2Proof.Laws.OpcodeField
end

