-- ==== Sys2Proof/Laws/Step.lean ====
section
/-! SUPPORT. What one step can do, and what the fetch hands it. -/

namespace Sys2Proof.Machine

/-! ### The event of a step -/

theorem wordEvent_illegal {p : Platform} {w : Word} {e : DecodeError} (h : decode w = .error e) :
    wordEvent p w = .illegal := by
  unfold wordEvent; rw [h]

theorem wordEvent_instruction {p : Platform} {w : Word} {i : Instr} (h : decode w = .ok i)
    (hc : p.noncanonicalFields = .ignore ∨ provides p i = false ∨ encode i = w) : wordEvent p w = .instruction i := by
  have hn : ¬ (p.noncanonicalFields = .refuse ∧ provides p i = true ∧ encode i ≠ w) := by
    rintro ⟨h1, h2, h3⟩
    rcases hc with h | h | h
    · rw [h] at h1; cases h1
    · rw [h] at h2; cases h2
    · exact h3 h
  unfold wordEvent; rw [h]
  exact if_neg hn

/-- What a fetched word leads to. -/
theorem wordEvent_cases (p : Platform) (w : Word) :
    (∃ e, decode w = .error e ∧ wordEvent p w = .illegal) ∨
    (∃ i, decode w = .ok i ∧ (p.noncanonicalFields = .ignore ∨ provides p i = false ∨ encode i = w) ∧
      wordEvent p w = .instruction i) ∨
    (∃ i, decode w = .ok i ∧ p.noncanonicalFields = .refuse ∧ provides p i = true ∧ encode i ≠ w ∧
      wordEvent p w = .refused .noncanonicalFields) := by
  cases hd : decode w with
  | error e => exact .inl ⟨e, rfl, wordEvent_illegal hd⟩
  | ok i =>
    by_cases hc : p.noncanonicalFields = .ignore ∨ provides p i = false ∨ encode i = w
    · exact .inr (.inl ⟨i, rfl, hc, wordEvent_instruction hd hc⟩)
    · have h1 : p.noncanonicalFields = .refuse := by
        cases hp : p.noncanonicalFields with
        | ignore => exact absurd (.inl hp) hc
        | refuse => rfl
      have h2 : provides p i = true := by
        cases hp : provides p i with
        | false => exact absurd (.inr (.inl hp)) hc
        | true => rfl
      have h3 : encode i ≠ w := fun h => hc (.inr (.inr h))
      refine .inr (.inr ⟨i, rfl, h1, h2, h3, ?_⟩)
      unfold wordEvent; rw [hd]
      exact if_pos ⟨h1, h2, h3⟩

/-- Where the environment lets the processor execute, the event is that of the fetch. -/
theorem nextEvent_fetch {s : State} (hr : s.input.reset = false)
    (hv : interruptVector s.input.take s.afterEnvironment = none) :
    nextEvent s.input s.afterEnvironment = fetchEvent s.afterEnvironment := by
  simp [nextEvent, hr, hv]

/-- Inside `MEM_REGION` the event of the fetch is that of the fetched word. -/
theorem fetchEvent_region {s : State} (hreg : wordInRegion s.platform (fetchAddress s.pc) = true) :
    fetchEvent s.afterEnvironment = wordEvent s.platform (s.readWord (fetchAddress s.pc)) := by
  simp [fetchEvent, regionAddress, hreg]

/-- Outside `MEM_REGION` the fetch has no meaning (rule R68). -/
theorem fetchEvent_outside {s : State} (hreg : wordInRegion s.platform (fetchAddress s.pc) = false) :
    fetchEvent s.afterEnvironment = .refused .outsideMemRegion := by
  simp [fetchEvent, regionAddress, hreg]

/-! ### The step -/

/-- The step at a state where the environment lets the processor execute (rules R25, R87, R299): the fetched word's
instruction runs. -/
theorem step_instruction {s : State} {i : Instr} (hr : s.input.reset = false)
    (hv : interruptVector s.input.take s.afterEnvironment = none)
    (hreg : wordInRegion s.platform (fetchAddress s.pc) = true)
    (hd : decode (s.readWord (fetchAddress s.pc)) = .ok i)
    (hc : s.platform.noncanonicalFields = .ignore ∨ provides s.platform i = false ∨
      encode i = s.readWord (fetchAddress s.pc)) :
    step s = exec i s.afterEnvironment := by
  unfold step
  rw [nextEvent_fetch hr hv, fetchEvent_region hreg, wordEvent_instruction hd hc]

/-- The step at an illegal instruction (rules R87, R90, R299). -/
theorem step_illegal {s : State} {e : DecodeError} (hr : s.input.reset = false)
    (hv : interruptVector s.input.take s.afterEnvironment = none)
    (hreg : wordInRegion s.platform (fetchAddress s.pc) = true)
    (hd : decode (s.readWord (fetchAddress s.pc)) = .error e) :
    step s = raiseIllegalInstruction s.afterEnvironment := by
  unfold step
  rw [nextEvent_fetch hr hv, fetchEvent_region hreg, wordEvent_illegal hd]

/-- The step at a word whose unused bits the platform refuses (rule R91). -/
theorem step_noncanonical {s : State} {i : Instr} (hr : s.input.reset = false)
    (hv : interruptVector s.input.take s.afterEnvironment = none)
    (hreg : wordInRegion s.platform (fetchAddress s.pc) = true)
    (hd : decode (s.readWord (fetchAddress s.pc)) = .ok i)
    (hp : s.platform.noncanonicalFields = .refuse) (hi : provides s.platform i = true)
    (hc : encode i ≠ s.readWord (fetchAddress s.pc)) :
    step s = .refused .noncanonicalFields := by
  have he : wordEvent s.platform (s.readWord (fetchAddress s.pc)) = .refused .noncanonicalFields := by
    unfold wordEvent; rw [hd]; exact if_pos ⟨hp, hi, hc⟩
  unfold step
  rw [nextEvent_fetch hr hv, fetchEvent_region hreg, he]

/-- The step where the fetch address is outside `MEM_REGION` (rule R68). -/
theorem step_outside {s : State} (hr : s.input.reset = false)
    (hv : interruptVector s.input.take s.afterEnvironment = none)
    (hreg : wordInRegion s.platform (fetchAddress s.pc) = false) : step s = .refused .outsideMemRegion := by
  unfold step
  rw [nextEvent_fetch hr hv, fetchEvent_outside hreg]

/-- The step at an interrupt (rules R287, R299). -/
theorem step_interrupt {s : State} {vec : Word} (hr : s.input.reset = false)
    (hv : interruptVector s.input.take s.afterEnvironment = some vec) :
    step s = .next (takeException vec s.afterEnvironment) := by
  have he : nextEvent s.input s.afterEnvironment = .interrupt vec := by simp [nextEvent, hr, hv]
  unfold step
  rw [he]

/-- The step when reset is asserted (rules R289, R322). -/
theorem step_reset {s : State} (hr : s.input.reset = true) : step s = .next (reassertReset s.afterEnvironment) := by
  have he : nextEvent s.input s.afterEnvironment = .reset := by simp [nextEvent, hr]
  unfold step
  rw [he]

/-- All that a step which answers a next state can have done (rule R299): reset, an interrupt, an instruction, or the
illegal instruction exception. -/
theorem step_next {s t : State} (h : step s = .next t) :
    (s.input.reset = true ∧ t = reassertReset s.afterEnvironment) ∨
    (s.input.reset = false ∧ s.isSupervisor = false ∧
      ∃ k vec, s.input.take = some k ∧ k ∈ s.afterEnvironment.pending ∧ s.platform.irqVectors[k]? = some vec ∧
        t = takeException vec s.afterEnvironment) ∨
    (s.input.reset = false ∧ interruptVector s.input.take s.afterEnvironment = none ∧
      wordInRegion s.platform (fetchAddress s.pc) = true ∧
      ((∃ i, decode (s.readWord (fetchAddress s.pc)) = .ok i ∧ exec i s.afterEnvironment = .next t) ∨
       (∃ e, decode (s.readWord (fetchAddress s.pc)) = .error e ∧ s.isSupervisor = false ∧
        t = takeException s.platform.vecIllop s.afterEnvironment))) := by
  by_cases hr : s.input.reset = true
  · rw [step_reset hr] at h
    exact .inl ⟨hr, (Host.Outcome.next.inj h).symm⟩
  rw [Bool.not_eq_true] at hr
  cases hv : interruptVector s.input.take s.afterEnvironment with
  | some vec =>
    rw [step_interrupt hr hv] at h
    obtain ⟨hs, k, hk, hp, hvec⟩ := interruptVector_some hv
    exact .inr (.inl ⟨hr, hs, k, vec, hk, hp, hvec, (Host.Outcome.next.inj h).symm⟩)
  | none =>
    cases hreg : wordInRegion s.platform (fetchAddress s.pc) with
    | false => rw [step_outside hr hv hreg] at h; cases h
    | true =>
      refine .inr (.inr ⟨hr, rfl, rfl, ?_⟩)
      rcases wordEvent_cases s.platform (s.readWord (fetchAddress s.pc)) with
        ⟨e, hd, -⟩ | ⟨i, hd, hc, -⟩ | ⟨i, hd, hp, hi, hc, -⟩
      · rw [step_illegal hr hv hreg hd] at h
        exact .inr ⟨e, hd, raiseIllegalInstruction_next h⟩
      · rw [step_instruction hr hv hreg hd hc] at h
        exact .inl ⟨i, hd, h⟩
      · rw [step_noncanonical hr hv hreg hd hp hi hc] at h; cases h

/-! ### The invariant -/

/-- What the four parts of the invariant say. -/
theorem wf_iff (s : State) :
    s.wf = true ↔ s.mem.wf = true ∧ isAligned s.pc = true ∧ kindsWf 0 s.platform.irqVectors.length s.pending = true ∧
      s.platform.wf = true := by
  simp [State.wf, and_assoc]

/-- What the environment does between two steps keeps the invariant. -/
theorem afterEnvironment_wf {s : State} (h : s.wf = true) : s.afterEnvironment.wf = true := by
  rw [wf_iff] at *
  exact ⟨h.1, h.2.1, updatePending_kindsWf _ _ _ h.2.2.1, h.2.2.2⟩

end Sys2Proof.Machine
end

