-- ==== Sys2Proof/Tests/Slice0.lean ====
section
/-! SUPPORT. The model's own tests: the checks of well-formedness, the decoding of words written out from the spec's
encodings, one step on small states with the results of spec/95_test_vectors.md, and, for each statement with hypotheses, a
state and operands that meet them. -/

namespace Sys2Proof.Machine

/-! ### Helpers -/

/-- The reset machine at `pc` with these registers and words of memory. -/
def stateAt (pc : Word) (regs : List (Reg × Word)) (mem : List (Word × Word)) : State :=
  let s := regs.foldl (fun s p => s.setReg p.1 p.2) { State.reset with pc := pc }
  mem.foldl (fun s p => s.writeWord p.1 p.2) s

/-- The next state of an outcome; the reset state where there is none. -/
def nextOr (o : StepOutcome) : State :=
  match o with
  | .next t => t
  | _ => State.reset

/-- The outcome is a next state with this property. -/
def leaves (o : StepOutcome) (check : State → Bool) : Bool :=
  match o with
  | .next t => check t
  | _ => false

/-- The outcome is this refusal. -/
def refuses (o : StepOutcome) (r : Refusal) : Bool :=
  match o with
  | .refused q => q == r
  | _ => false

/-- The outcome is a fault. -/
def faults (o : StepOutcome) : Bool :=
  match o with
  | .fault _ => true
  | _ => false

theorem next_of_leaves {o : StepOutcome} (h : leaves o (fun _ => true) = true) : o = .next (nextOr o) := by
  cases o <;> first | rfl | cases h

/-- The word `w`, run at address 0x100 in user mode with R1 and R2 as given, leaves `v` in `r` and goes on. -/
def gives (w : Nat) (r1 r2 : Word) (r : Reg) (v : Word) : Bool :=
  leaves (step ((stateAt 0x00000100#32 [(1, r1), (2, r2)] []).withFetchWord 32 w)) fun t =>
    t.reg r == v && t.pc == 0x00000104#32

/-- The word `w`, run in the state `s`, leaves the PC and a register as given. -/
def goes (w : Nat) (s : State) (pc : Word) (r : Reg) (v : Word) : Bool :=
  leaves (step (s.withFetchWord 32 w)) fun t => t.pc == pc && t.reg r == v

/-! ### Well-formedness: what each check refuses (rules R8, R97) -/

theorem test_wf_refuses_literal_above : (Instr.addc 1 32768 2).wf = false := by decide
theorem test_wf_refuses_literal_below : (Instr.ld 1 (-32769) 2).wf = false := by decide
theorem test_wf_accepts_both_ends : (Instr.st 1 32767 2).wf = true ∧ (Instr.ldr (-32768) 2).wf = true := by decide
theorem test_assemble_refuses_ill_formed : assemble (.beq 1 32768 r31) = none := by decide
theorem test_vector_refuses_misaligned : vectorWf 0x00000006#32 = false := by decide
theorem test_vector_refuses_supervisor_bit : vectorWf 0x80000004#32 = false := by decide
theorem test_platform_refuses_interrupt_vector :
    Platform.wf { resetPlatform with irqVectors := [0x00000008#32, 0x00000009#32] } = false := by decide
theorem test_label_literals : literalOfLabel 0x20 0x30 = some 3 ∧ literalOfLabel 0x10 0x08 = some (-3) ∧
    literalOfLabel 0x20 0x20 = some (-1) ∧ literalOfLabel 0x20 0x32 = none ∧ literalOfLabel 0 0x20008 = none := by decide

/-! ### Macros (95_test_vectors.md section 2.8) -/

theorem test_macro_push : assembleMacro 0 (.push 1) = some [0xC3BD0004#32, 0x643DFFFC#32] := by decide
theorem test_macro_pop : assembleMacro 0 (.pop 1) = some [0x603DFFFC#32, 0xC7BD0004#32] := by decide
theorem test_macro_move : assembleMacro 0 (.move sp bp) = some [0x837DF800#32] := by decide
theorem test_macro_cmove : assembleMacro 0 (.cmove 5 1) = some [0xC03F0005#32] := by decide
theorem test_macro_allocate : assembleMacro 0 (.allocate 3) = some [0xC3BD000C#32] := by decide
theorem test_macro_branch_with_link : assembleMacro 0x20 (.brLink 0x38 lp) = some [0x739F0005#32] := by decide
theorem test_macro_load_store : assembleMacro 0 (.ld 0x100#32 2) = some [0x605F0100#32] ∧
    assembleMacro 0 (.st 0 0x100#32) = some [0x641F0100#32] := by decide

/-! ### Decoding: a word of each instruction, field by field (95_test_vectors.md, rules R81, R82) -/

theorem test_decode_add : decode 0b100000_00011_00001_00010_00000000000#32 = .ok (.add 1 2 3) := by decide
theorem test_decode_addc : decode 0b110000_00011_00001_1111111111111111#32 = .ok (.addc 1 (-1) 3) := by decide
theorem test_decode_and : decode 0b101000_00011_00001_00010_00000000000#32 = .ok (.and 1 2 3) := by decide
theorem test_decode_andc : decode 0b111000_00011_00001_1111111100000000#32 = .ok (.andc 1 (-256) 3) := by decide
theorem test_decode_beq : decode 0b011100_11111_00001_0000000000000011#32 = .ok (.beq 1 3 r31) := by decide
theorem test_decode_bne : decode 0b011101_11111_00001_1111111111111101#32 = .ok (.bne 1 (-3) r31) := by decide
theorem test_decode_cmpeq : decode 0b100100_00011_00001_00010_00000000000#32 = .ok (.cmpeq 1 2 3) := by decide
theorem test_decode_cmpeqc : decode 0b110100_00011_00001_1111111111111111#32 = .ok (.cmpeqc 1 (-1) 3) := by decide
theorem test_decode_cmple : decode 0b100110_00011_00001_00010_00000000000#32 = .ok (.cmple 1 2 3) := by decide
theorem test_decode_cmplec : decode 0b110110_00011_00001_1000000000000000#32 = .ok (.cmplec 1 (-32768) 3) := by decide
theorem test_decode_cmplt : decode 0b100101_00011_00001_00010_00000000000#32 = .ok (.cmplt 1 2 3) := by decide
theorem test_decode_cmpltc : decode 0b110101_00011_00001_0000000000000000#32 = .ok (.cmpltc 1 0 3) := by decide
theorem test_decode_div : decode 0b100011_00011_00001_00010_00000000000#32 = .ok (.div 1 2 3) := by decide
theorem test_decode_divc : decode 0b110011_00011_00001_1111111111111001#32 = .ok (.divc 1 (-7) 3) := by decide
theorem test_decode_jmp : decode 0b011011_00010_00001_0000000000000000#32 = .ok (.jmp 1 2) := by decide
theorem test_decode_ld : decode 0b011000_00010_00001_0000000000001000#32 = .ok (.ld 1 8 2) := by decide
theorem test_decode_ldr : decode 0b011111_00000_11111_0000000000000010#32 = .ok (.ldr 2 0) := by decide
theorem test_decode_mul : decode 0b100010_00011_00001_00010_00000000000#32 = .ok (.mul 1 2 3) := by decide
theorem test_decode_mulc : decode 0b110010_00011_00001_1111111111111101#32 = .ok (.mulc 1 (-3) 3) := by decide
theorem test_decode_or : decode 0b101001_00011_00001_00010_00000000000#32 = .ok (.or 1 2 3) := by decide
theorem test_decode_orc : decode 0b111001_00011_00001_1000000000000000#32 = .ok (.orc 1 (-32768) 3) := by decide
theorem test_decode_shl : decode 0b101100_00011_00001_00010_00000000000#32 = .ok (.shl 1 2 3) := by decide
theorem test_decode_shlc : decode 0b111100_00011_00001_0000000000000100#32 = .ok (.shlc 1 4 3) := by decide
theorem test_decode_shr : decode 0b101101_00011_00001_00010_00000000000#32 = .ok (.shr 1 2 3) := by decide
theorem test_decode_shrc : decode 0b111101_00011_00001_0000000000000100#32 = .ok (.shrc 1 4 3) := by decide
theorem test_decode_sra : decode 0b101110_00011_00001_00010_00000000000#32 = .ok (.sra 1 2 3) := by decide
theorem test_decode_srac : decode 0b111110_00011_00001_0000000000000100#32 = .ok (.srac 1 4 3) := by decide
theorem test_decode_st : decode 0b011001_00001_00010_1111111111111100#32 = .ok (.st 1 (-4) 2) := by decide
theorem test_decode_sub : decode 0b100001_00101_00011_00100_00000000000#32 = .ok (.sub 3 4 5) := by decide
theorem test_decode_subc : decode 0b110001_00011_00001_0000000000000001#32 = .ok (.subc 1 1 3) := by decide
theorem test_decode_xor : decode 0b101010_00011_00001_00010_00000000000#32 = .ok (.xor 1 2 3) := by decide
theorem test_decode_xorc : decode 0b111010_00011_00001_1111111111111111#32 = .ok (.xorc 1 (-1) 3) := by decide
theorem test_decode_xnor : decode 0b101011_00011_00001_00010_00000000000#32 = .ok (.xnor 1 2 3) := by decide
theorem test_decode_xnorc : decode 0b111011_00011_00001_0000000000000000#32 = .ok (.xnorc 1 0 3) := by decide
theorem test_decode_privileged : decode 0b000000_00000000000000000000000001#32 = .ok (.privileged 1#26) := by decide
theorem test_decode_ignores_unused_bits : decode 0x84A327FF#32 = .ok (.sub 3 4 5) ∧ decode 0x6C411234#32 = .ok (.jmp 1 2) ∧
    decode 0x7C050002#32 = .ok (.ldr 2 0) := by decide
theorem test_decode_rejects_illegal : decode 0x04000000#32 = .error (.illegalOpcode 0x01#6) ∧
    decode 0x68000000#32 = .error (.illegalOpcode 0x1A#6) ∧ decode 0xFFFFFFFF#32 = .error (.illegalOpcode 0x3F#6) := by decide
theorem test_decode_rejects_truncated : decodeBytes .littleEndian [0x00#8, 0x10#8, 0x61#8] = .error .truncated := by decide
theorem test_decode_bytes : decodeBytes .littleEndian [0x00#8, 0x10#8, 0x61#8, 0x80#8, 0xAA#8] =
    .ok (.add 1 2 3, [0xAA#8]) := by decide
theorem test_decode_table_word : decodeTableWord 32 0x80611000 = some (.add 1 2 3) := by decide
theorem test_unassigned_count : unassignedOpcodes.length = 29 := by decide

/-! ### One step of each instruction (95_test_vectors.md sections 2.1 to 2.5) -/

theorem test_add_overflow : gives 0x80611000 0x7FFFFFFF#32 0x00000001#32 3 0x80000000#32 = true := by decide
theorem test_add_wrap : gives 0x80611000 0xFFFFFFFF#32 0x00000001#32 3 0x00000000#32 = true := by decide
theorem test_addc_negative : gives 0xC061FFFF 0x00000005#32 0x00000000#32 3 0x00000004#32 = true := by decide
theorem test_addc_most_negative : gives 0xC0618000 0x00000000#32 0x00000000#32 3 0xFFFF8000#32 = true := by decide
theorem test_sub_borrow : gives 0x84611000 0x00000000#32 0x00000001#32 3 0xFFFFFFFF#32 = true := by decide
theorem test_sub_order : gives 0x84611000 0x80000000#32 0x00000001#32 3 0x7FFFFFFF#32 = true := by decide
theorem test_subc_most_negative : gives 0xC4618000 0x00000000#32 0x00000000#32 3 0x00008000#32 = true := by decide
theorem test_subc_borrow : gives 0xC4610001 0x00000000#32 0x00000000#32 3 0xFFFFFFFF#32 = true := by decide
theorem test_mul :
    (gives 0x88611000 0x12345678#32 0x9ABCDEF0#32 3 0x242D2080#32 = true) ∧
    (gives 0x88611000 0x00000007#32 0xFFFFFFFD#32 3 0xFFFFFFEB#32 = true) := by decide
theorem test_mulc_negative : gives 0xC861FFFD 0x00000003#32 0x00000000#32 3 0xFFFFFFF7#32 = true := by decide
theorem test_mulc_wrap : gives 0xC8610004 0x40000000#32 0x00000000#32 3 0x00000000#32 = true := by decide
theorem test_div :
    (gives 0x8C611000 0xFFFFFFF9#32 0x00000002#32 3 0xFFFFFFFD#32 = true) ∧
    (gives 0x8C611000 0x80000000#32 0xFFFFFFFF#32 3 0x80000000#32 = true) := by decide
theorem test_divc_negative_dividend : gives 0xCC610007 0xFFFFFF9C#32 0x00000000#32 3 0xFFFFFFF2#32 = true := by decide
theorem test_divc_negative_divisor : gives 0xCC61FFF9 0x00000064#32 0x00000000#32 3 0xFFFFFFF2#32 = true := by decide
theorem test_and : gives 0xA0611000 0xF0F0F0F0#32 0xFF00FF00#32 3 0xF000F000#32 = true := by decide
theorem test_andc_sign_extends : gives 0xE061FF00 0x12345678#32 0x00000000#32 3 0x12345600#32 = true := by decide
theorem test_or : gives 0xA4611000 0xF0F0F0F0#32 0xFF00FF00#32 3 0xFFF0FFF0#32 = true := by decide
theorem test_orc_sign_extends : gives 0xE4618000 0x12345678#32 0x00000000#32 3 0xFFFFD678#32 = true := by decide
theorem test_xor : gives 0xA8611000 0xF0F0F0F0#32 0xFF00FF00#32 3 0x0FF00FF0#32 = true := by decide
theorem test_xorc_complement : gives 0xE861FFFF 0x12345678#32 0x00000000#32 3 0xEDCBA987#32 = true := by decide
theorem test_xnor : gives 0xAC611000 0xF0F0F0F0#32 0xFF00FF00#32 3 0xF00FF00F#32 = true := by decide
theorem test_xnorc_complement : gives 0xEC610000 0x12345678#32 0x00000000#32 3 0xEDCBA987#32 = true := by decide
theorem test_cmpeq_true : gives 0x90611000 0x00000005#32 0x00000005#32 3 0x00000001#32 = true := by decide
theorem test_cmpeq_false : gives 0x90611000 0x80000000#32 0x00000000#32 3 0x00000000#32 = true := by decide
theorem test_cmpeqc_true : gives 0xD061FFFF 0xFFFFFFFF#32 0x00000000#32 3 0x00000001#32 = true := by decide
theorem test_cmpeqc_false : gives 0xD061FFFF 0x0000FFFF#32 0x00000000#32 3 0x00000000#32 = true := by decide
theorem test_cmplt_signed : gives 0x94611000 0x80000000#32 0x7FFFFFFF#32 3 0x00000001#32 = true := by decide
theorem test_cmplt_equal : gives 0x94611000 0x00000005#32 0x00000005#32 3 0x00000000#32 = true := by decide
theorem test_cmpltc_signed : gives 0xD4610000 0xFFFFFFFF#32 0x00000000#32 3 0x00000001#32 = true := by decide
theorem test_cmpltc_false : gives 0xD461FFFF 0x00000000#32 0x00000000#32 3 0x00000000#32 = true := by decide
theorem test_cmple_equal : gives 0x98611000 0x00000005#32 0x00000005#32 3 0x00000001#32 = true := by decide
theorem test_cmple_signed : gives 0x98611000 0x7FFFFFFF#32 0x80000000#32 3 0x00000000#32 = true := by decide
theorem test_cmplec_equal : gives 0xD8618000 0xFFFF8000#32 0x00000000#32 3 0x00000001#32 = true := by decide
theorem test_cmplec_false : gives 0xD8610000 0x00000001#32 0x00000000#32 3 0x00000000#32 = true := by decide
theorem test_shl_low_five_bits : gives 0xB0611000 0xDEADBEEF#32 0xFFFFFFE4#32 3 0xEADBEEF0#32 = true := by decide
theorem test_shl_by_32 : gives 0xB0611000 0x00000001#32 0x00000020#32 3 0x00000001#32 = true := by decide
theorem test_shlc : gives 0xF0610004 0xDEADBEEF#32 0x00000000#32 3 0xEADBEEF0#32 = true := by decide
theorem test_shr_zero_fill : gives 0xB4611000 0xDEADBEEF#32 0x00000004#32 3 0x0DEADBEE#32 = true := by decide
theorem test_shr_by_31 : gives 0xB4611000 0x80000000#32 0x0000001F#32 3 0x00000001#32 = true := by decide
theorem test_shrc : gives 0xF4610004 0xDEADBEEF#32 0x00000000#32 3 0x0DEADBEE#32 = true := by decide
theorem test_sra_sign_fill : gives 0xB8611000 0xDEADBEEF#32 0x00000004#32 3 0xFDEADBEE#32 = true := by decide
theorem test_sra_positive : gives 0xB8611000 0x7FFFFFFF#32 0x00000004#32 3 0x07FFFFFF#32 = true := by decide
theorem test_srac : gives 0xF8610004 0xDEADBEEF#32 0x00000000#32 3 0xFDEADBEE#32 = true := by decide
theorem test_source_is_destination : gives 0x80210800 0x40000000#32 0#32 1 0x80000000#32 = true := by decide
theorem test_r31_discards : gives 0x83E11000 5#32 7#32 r31 0#32 = true := by decide

/-! ### Loads and stores (95_test_vectors.md section 2.6) -/

theorem test_ld : leaves (step ((stateAt 0x00000100#32 [(1, 0x00001000#32)] [(0x00001008#32, 0xCAFEF00D#32)]).withFetchWord
    32 0x60410008)) (fun t => t.reg 2 == 0xCAFEF00D#32 && t.pc == 0x00000104#32) = true := by decide
/-- A misaligned address, masked on the platform of reset (log entry 8) and refused on another (rule R57). -/
theorem test_ld_misaligned :
    goes 0x60410001 (stateAt 0x00000100#32 [(1, 0x00001008#32)] [(0x00001008#32, 0xCAFEF00D#32)])
      0x00000104#32 2 0xCAFEF00D#32 = true ∧
    refuses (exec (.ld 1 1 2) { stateAt 0x00000100#32 [] [] with
      platform := defaultPlatform }) .misalignedData = true := by decide
theorem test_st : leaves (step ((stateAt 0x00000100#32 [(1, 0x11223344#32), (2, 0x00002004#32)] []).withFetchWord 32 0x6422FFFC))
    (fun t => t.readWord 0x00002000#32 == 0x11223344#32 && readByte t.mem 0x2000 == 0x44#8 && t.pc == 0x00000104#32)
    = true := by decide
theorem test_st_wraps : leaves (step ((stateAt 0x00000100#32 [(1, 0xFFFFFFFC#32), (2, 7#32)] []).withFetchWord 32 0x64410004))
    (fun t => t.readWord 0#32 == 7#32) = true := by decide
theorem test_ldr_in_supervisor_mode :
    goes 0x7C1F0002 (stateAt 0x80000100#32 [] [(0x0000010C#32, 0x89ABCDEF#32)]) 0x80000104#32 0 0x89ABCDEF#32 = true := by
  decide
theorem test_ldr_wraps :
    goes 0x7C7FFFFE (stateAt 0#32 [] [(0x7FFFFFFC#32, 0x42#32)]) 4#32 3 0x42#32 = true := by decide

/-! ### Control transfer (95_test_vectors.md section 2.7) -/

theorem test_beq_taken_links_after_test : goes 0x70210003 (stateAt 0x20#32 [(1, 0#32)] []) 0x30#32 1 0x24#32 = true := by decide
theorem test_beq_tests_all_bits : goes 0x73E10003 (stateAt 0x20#32 [(1, 0x80000000#32)] []) 0x24#32 r31 0#32 = true := by decide
theorem test_bne_taken : goes 0x77E1FFFD (stateAt 0x10#32 [(1, 7#32)] []) 0x08#32 r31 0#32 = true := by decide
theorem test_bne_only_links : goes 0x745F0005 (stateAt 0x10#32 [] []) 0x14#32 2 0x14#32 = true := by decide
theorem test_jmp_masks_and_keeps_user_mode :
    goes 0x6FFC0000 (stateAt 0x40#32 [(lp, 0x80000103#32)] []) 0x100#32 r31 0#32 = true := by decide
theorem test_jmp_reads_before_linking : goes 0x6C210000 (stateAt 0x40#32 [(1, 0x200#32)] []) 0x200#32 1 0x44#32 = true := by decide
theorem test_link_and_target_wrap :
    goes 0x703F0000 (stateAt 0x7FFFFFFC#32 [] []) 0#32 1 0#32 = true ∧
    goes 0x703F0000 (stateAt 0xFFFFFFFC#32 [] []) 0x80000000#32 1 0x80000000#32 = true := by decide

/-! ### Exceptions (95_test_vectors.md sections 2.9, 2.10) -/

theorem test_privileged_in_user_mode : goes 0x00000000 (stateAt 0x100#32 [] []) 0x80000004#32 xp 0x104#32 = true := by decide
theorem test_privileged_in_supervisor_mode :
    refuses (step ((stateAt 0x80000200#32 [] []).withFetchWord 32 0)) .privilegedSemantics = true := by decide
theorem test_illegal_wraps : goes 0x68000000 (stateAt 0x7FFFFFFC#32 [] []) 0x80000004#32 xp 0#32 = true := by decide
theorem test_illegal_in_supervisor_mode : faults (step ((stateAt 0x80000200#32 [] []).withFetchWord 32 0x04000000)) = true := by
  decide
/-- An omitted MUL is illegal whatever its unused bits, also where non-canonical words are refused (rules R87, R90). -/
theorem test_mul_omitted :
    (goes 0x88611000 { stateAt 0x100#32 [] [] with platform := { resetPlatform with implOptional := [.div] } }
    0x80000004#32 xp 0x104#32 = true) ∧
    (goes 0x886117FF { stateAt 0x100#32 [] [] with
      platform := { defaultPlatform with implOptional := [.div], noncanonicalFields := .refuse } }
    0x80000004#32 xp 0x104#32 = true) := by decide
/-- The defaults of rule R7: x / 0 is refused (95_test_vectors.md section 2.1). -/
theorem test_div_by_zero : refuses (exec (.div 1 2 3) (stateAt 0x100#32 [(1, 5#32)] [])) .divisionByZero = true := by
  decide

/-- The two outcomes of 95_test_vectors.md section 2.10: the interrupt is chosen, and it is not. -/
def interruptedState (take : Option Nat) : State :=
  { stateAt 0x200#32 [(1, 9#32)] [(0x200#32, 0xC0210001#32)] with pending := [0], inputs := [{ take := take }] }

theorem test_interrupt_taken : leaves (step (interruptedState (some 0))) (fun t =>
    t.reg xp == 0x204#32 && t.pc == 0x80000008#32 && t.reg 1 == 9#32 && t.pending == [0]) = true := by decide
theorem test_interrupt_not_taken : leaves (step (interruptedState none)) (fun t =>
    t.reg xp == 0#32 && t.pc == 0x204#32 && t.reg 1 == 10#32 && t.pending == [0]) = true := by decide

/-- PUSH then POP (95_test_vectors.md section 2.8). -/
theorem test_push_pop : leaves (execAll [.addc sp 4 sp, .st 1 (-4) sp, .ld sp (-4) 2, .subc sp 4 sp]
    (stateAt 0x100#32 [(sp, 0x1000#32), (1, 0xAA#32)] []))
    (fun t => t.reg 2 == 0xAA#32 && t.reg sp == 0x1000#32 && t.readWord 0x1000#32 == 0xAA#32) = true := by decide
/-! ### Witnesses: for each statement with hypotheses, what meets them -/

/-- The reset platform with another choice of one parameter each. -/
def bigEndianPlatform : Platform := { resetPlatform with byteOrder := .bigEndian }
def refusingPlatform : Platform :=
  { defaultPlatform with noncanonicalFields := .refuse }
def barePlatform : Platform := { resetPlatform with implOptional := [] }
def freeQuotientPlatform : Platform := { resetPlatform with divByZero := .freeQuotient }
def smallPlatform : Platform := { resetPlatform with memRegion := [⟨0x00000000#32, 0x00000FFF#32⟩] }

/-- User mode, with a dividend, a divisor and a stack. -/
def userState : State := stateAt 0x00000100#32 [(1, 7#32), (2, 2#32), (sp, 0x00001000#32)] []
/-- The same registers in supervisor mode. -/
def supervisorState : State := stateAt 0x80000100#32 [(1, 7#32), (2, 2#32), (sp, 0x00001000#32)] []
/-- The stack pointer at the last word of memory. -/
def topOfMemoryState : State := stateAt 0x00000100#32 [(1, 7#32), (sp, 0xFFFFFFFC#32)] []

theorem test_witness_DecodeOfEncodeIsTheInstruction :
    (Instr.addc 1 (-32768) 2).wf = true ∧ (Instr.ldr 32767 0).wf = true ∧ (Instr.privileged 0#26).wf = true := by decide

/-- A privileged word, an LDR with Ra 5, an Operate word with unused bits, a word with a literal. -/
theorem test_witness_EncodeOfDecodeKeepsUsedBits :
    (decode 0x00000001#32 = .ok (.privileged 1#26) ∧ opcodeField 0x00000001#32 = 0x00#6) ∧
    (decode 0x7C050002#32 = .ok (.ldr 2 0) ∧ opcodeField 0x7C050002#32 = 0x1F#6) ∧
    (decode 0x84A327FF#32 = .ok (.sub 3 4 5) ∧ (opcodeField 0x84A327FF#32).extractLsb' 4 2 = 0b10#2 ∧
      opcodeField 0x84A327FF#32 ≠ 0x00#6 ∧ opcodeField 0x84A327FF#32 ≠ 0x1F#6) ∧
    (decode 0x64BF03E8#32 = .ok (.st 5 1000 r31) ∧ (opcodeField 0x64BF03E8#32).extractLsb' 4 1 = 0b1#1 ∧
      opcodeField 0x64BF03E8#32 ≠ 0x1B#6) := by decide

theorem test_witness_DecodeRejectsExactlyUnassignedOpcodes :
    opcodeField 0x04000000#32 ∈ unassignedOpcodes ∧ opcodeField 0xFFFFFFFF#32 ∈ unassignedOpcodes ∧
    opcodeField 0x00000000#32 ∉ unassignedOpcodes ∧ opcodeField 0xFBFFFFFF#32 ∉ unassignedOpcodes := by decide

theorem test_witness_AssemblerRefusesLiteralsOutOfRange :
    ((Instr.addc 1 32768 2).literal? = some 32768 ∧ ¬ ((-32768 : Int) ≤ 32768 ∧ (32768 : Int) ≤ 32767)) ∧
    ((Instr.addc 1 (-32769) 2).literal? = some (-32769) ∧ ¬ ((-32768 : Int) ≤ -32769 ∧ (-32769 : Int) ≤ 32767)) ∧
    ((Instr.st 1 32767 2).literal? = some 32767 ∧ (-32768 : Int) ≤ 32767 ∧ (32767 : Int) ≤ 32767) ∧
    ((Instr.beq 1 (-32768) 2).literal? = some (-32768) ∧ (-32768 : Int) ≤ -32768 ∧ (-32768 : Int) ≤ 32767) := by decide

/-- A near label in supervisor mode, and the farthest one backward from the last word of the low half. -/
theorem test_witness_LabelLiteralReachesLabel :
    (0x20 < 2 ^ 31 ∧ 0x30 < 2 ^ 31 ∧ 0x20 % 4 = 0 ∧ (0x80000020#32).toNat % 2 ^ 31 = 0x20 ∧
      literalOfLabel 0x20 0x30 = some 3) ∧
    (0x7FFFFFFC < 2 ^ 31 ∧ 0x7FFE0000 < 2 ^ 31 ∧ 0x7FFFFFFC % 4 = 0 ∧ (0x7FFFFFFC#32).toNat % 2 ^ 31 = 0x7FFFFFFC ∧
      literalOfLabel 0x7FFFFFFC 0x7FFE0000 = some (-32768)) := by decide

theorem test_witness_MacrosExpandAsTheTable :
    (literalOfLabel 0x20 0x30 = some 3 ∧ literalOfLabel 0 0x20008 = none) ∧ (8191 ≤ 8191 ∧ 8191 < 8192) ∧
    ((0x7FFF#32).toNat ≤ 0x7FFF ∧ 0xFFFF8000 ≤ (0xFFFF8000#32).toNat) ∧
    (0x7FFF < (0x8000#32).toNat ∧ (0x8000#32).toNat < 0xFFFF8000) ∧
    (0x7FFF < (0xFFFF7FFF#32).toNat ∧ (0xFFFF7FFF#32).toNat < 0xFFFF8000) ∧
    ((-32768 : Int) ≤ -32768 ∧ (-32768 : Int) ≤ 32767) ∧ ¬ ((-32768 : Int) ≤ 32768 ∧ (32768 : Int) ≤ 32767) := by decide

theorem test_witness_RegisterThirtyOneIsZeroOthersAreStorage : xp ≠ r31 ∧ (0 : Reg) ≠ r31 ∧ (0 : Reg) ≠ xp := by decide

theorem test_witness_FetchIgnoresSupervisorBit :
    (0x80000100#32).toNat % 4 = 0 ∧ (0x7FFFFFFC#32).toNat % 4 = 0 := by decide

/-- The first and the last word of memory, and addresses next to a word. -/
theorem test_witness_MemoryReadReturnsWhatWriteStored :
    userState.mem.wf = true ∧ wordInRegion userState.platform 0#32 = true ∧
    wordInRegion userState.platform 0xFFFFFFFC#32 = true ∧ 3 < 4 ∧
    (¬ (0x1000 ≤ 0xFFF ∧ 0xFFF < 0x1000 + 4) ∧ ¬ (0x1000 ≤ 0x1004 ∧ 0x1004 < 0x1000 + 4)) := by decide

theorem test_witness_ByteOrderPlacesBytes :
    (userState.mem.wf = true ∧ wordInRegion userState.platform 0xFFFFFFFC#32 = true ∧
      userState.platform.byteOrder = .littleEndian) ∧
    wordInRegion bigEndianPlatform 0#32 = true ∧ bigEndianPlatform.byteOrder = .bigEndian := by decide

/-- Every optional opcode provided, and none, in both modes. -/
theorem test_witness_MultiplyInstructions :
    (userState.platform.implOptional.contains .mul = true ∧ userState.platform.implOptional.contains .mulc = true) ∧
    (barePlatform.implOptional.contains .mul = false ∧ barePlatform.implOptional.contains .mulc = false) ∧
    userState.isSupervisor = false ∧ supervisorState.isSupervisor = true := by decide

theorem test_witness_DivideInstructions :
    userState.platform.implOptional.contains .div = true ∧ userState.reg 2 ≠ 0#32 ∧
    userState.platform.implOptional.contains .divc = true ∧ (0x8000#16 ≠ 0#16 ∧ 0x7FFF#16 ≠ 0#16) := by decide

theorem test_witness_DivideByZeroWritesFreeQuotientOrRefuses :
    userState.reg 3 = 0#32 ∧
    (freeQuotientPlatform.implOptional.contains .div = true ∧ freeQuotientPlatform.implOptional.contains .divc = true ∧
      freeQuotientPlatform.divByZero = .freeQuotient) ∧
    (userState.platform.implOptional.contains .div = true ∧ userState.platform.implOptional.contains .divc = true ∧
      userState.platform.divByZero = .refuse) := by decide

theorem test_witness_OmittedDivideIsIllegal :
    barePlatform.implOptional.contains .div = false ∧ barePlatform.implOptional.contains .divc = false := by decide

theorem test_witness_DivisionReadingsAgreeOnNonnegative :
    (0x7FFFFFFF#32).getLsbD 31 = false ∧ (1#32).getLsbD 31 = false ∧ 1#32 ≠ 0#32 ∧
    DivReading.signedFlooring ≠ .uninterpreted ∧ DivReading.unsigned ≠ .uninterpreted ∧
    DivReading.signedTruncating ≠ .uninterpreted := by decide

theorem test_witness_SignedAndUnsignedOrderAgreeOnEqualTopBits :
    (0x80000000#32).getLsbD 31 = (0xFFFFFFFF#32).getLsbD 31 ∧ (0#32).getLsbD 31 = (0x7FFFFFFF#32).getLsbD 31 := by decide

/-- An aligned and a misaligned effective address, and the wrap from the top of memory to its start. -/
theorem test_witness_LoadInstruction :
    Accesses userState.platform (effectiveAddress (userState.reg sp) (-4)) 0x00000FFC#32 ∧
    Accesses userState.platform (effectiveAddress (userState.reg sp) 7) 0x00001004#32 ∧
    Accesses topOfMemoryState.platform (effectiveAddress (topOfMemoryState.reg sp) 4) 0x00000000#32 :=
  ⟨⟨by decide, .inl (by decide)⟩, ⟨by decide, .inr (by decide)⟩, ⟨by decide, .inl (by decide)⟩⟩

theorem test_witness_LoadRelativeInstruction :
    userState.pc.toNat % 4 = 0 ∧ wordInRegion userState.platform (ldrAddress (nextPc userState.pc) (-32768)) = true ∧
    supervisorState.pc.toNat % 4 = 0 ∧
    wordInRegion supervisorState.platform (ldrAddress (nextPc supervisorState.pc) 32767) = true := by decide

theorem test_witness_StoreInstruction :
    userState.mem.wf = true ∧ Accesses userState.platform (effectiveAddress (userState.reg sp) (-4)) 0x00000FFC#32 ∧
    Accesses userState.platform (effectiveAddress (userState.reg sp) 7) 0x00001004#32 :=
  ⟨by decide, ⟨by decide, .inl (by decide)⟩, ⟨by decide, .inr (by decide)⟩⟩

/-- A misaligned address, an aligned one outside memory, a masked one outside memory, an LDR beyond the end of memory. -/
theorem test_witness_LoadAndStoreRefuseWhereUndefined :
    ((effectiveAddress (userState.reg sp) 1).toNat % 4 ≠ 0 ∧ refusingPlatform.misalignedData = .refuse) ∧
    ((effectiveAddress (userState.reg sp) 0).toNat % 4 = 0 ∧
      wordInRegion smallPlatform (effectiveAddress (userState.reg sp) 0) = false) ∧
    ((effectiveAddress (userState.reg sp) 3).toNat % 4 ≠ 0 ∧ smallPlatform.misalignedData = .maskLowTwoBits ∧
      (0x00001000#32).toNat = (effectiveAddress (userState.reg sp) 3).toNat / 4 * 4 ∧
      wordInRegion smallPlatform 0x00001000#32 = false) ∧
    (userState.pc.toNat % 4 = 0 ∧ wordInRegion smallPlatform (ldrAddress (nextPc userState.pc) 0x3BF) = false) := by decide

theorem test_witness_PrivilegedClass : userState.isSupervisor = false ∧ supervisorState.isSupervisor = true := by decide

theorem test_witness_InstructionsDoTheSameInBothModes :
    ((∀ form, Instr.jmp 1 2 ≠ .privileged form) ∧
      ∀ op, optional? (.jmp 1 2) = some op → userState.platform.implOptional.contains op = true) ∧
    ((∀ form, Instr.div 1 2 3 ≠ .privileged form) ∧
      ∀ op, optional? (.div 1 2 3) = some op → userState.platform.implOptional.contains op = true) := by
  refine ⟨⟨?_, ?_⟩, ?_, ?_⟩
  · intro form h; cases h
  · intro op h; cases h
  · intro form h; cases h
  · intro op h; cases h; decide

/-- In supervisor mode no interrupt is taken. -/
theorem noInterrupt_of_supervisor {s : State} (h : s.isSupervisor = true) : NoInterruptTaken s := .inl h

/-- With no kind chosen no interrupt is taken. -/
theorem noInterrupt_of_none {s : State} (h : s.input.take = none) : NoInterruptTaken s :=
  .inr fun k hk => by rw [h] at hk; cases hk

/-- With a kind chosen that is neither raised nor pending no interrupt is taken. -/
theorem noInterrupt_of_not_pending {s : State} {k : Nat} (h : s.input.take = some k)
    (hn : k ∉ s.input.raised ∧ k ∉ s.pending) : NoInterruptTaken s :=
  .inr fun j hj => by
    have e : k = j := Option.some.inj (h.symm.trans hj)
    subst e; exact .inr ⟨hn.1, .inl hn.2⟩

/-- With something chosen that is no kind no interrupt is taken. -/
theorem noInterrupt_of_no_kind {s : State} {k : Nat} (h : s.input.take = some k)
    (hn : s.platform.irqVectors.length ≤ k) : NoInterruptTaken s :=
  .inr fun j hj => by
    have e : k = j := Option.some.inj (h.symm.trans hj)
    subst e; exact .inl hn

/-- A word at address 0x200 in the given mode, with a choice of the environment. -/
def fetchState (supervisor : Bool) (w : Word) (p : Platform) (pending : List Nat) (take : Option Nat) : State :=
  { stateAt (if supervisor then 0x80000200#32 else 0x200#32) [] [(0x200#32, w)] with
    platform := p, pending := pending, inputs := [{ take := take }] }

/-- The boundary cases of the hypothesis that no interrupt is taken, in user and in supervisor mode. -/
theorem test_witness_NoInterruptTaken :
    (NoInterruptTaken (fetchState false 0x80611000#32 resetPlatform [0] none)) ∧
    (NoInterruptTaken (fetchState false 0x80611000#32 resetPlatform [] (some 0))) ∧
    (NoInterruptTaken (fetchState false 0x80611000#32 resetPlatform [0] (some 1))) ∧
    (NoInterruptTaken (fetchState true 0x80611000#32 resetPlatform [0] (some 0))) :=
  ⟨noInterrupt_of_none (by decide), noInterrupt_of_not_pending (k := 0) (by decide) (by decide),
    noInterrupt_of_no_kind (k := 1) (by decide) (by decide), noInterrupt_of_supervisor (by decide)⟩

/-- ADD in user mode with a chosen kind that is not pending; a canonical and an omitted word where others are refused. -/
theorem test_witness_StepRunsTheDecodedInstruction :
    (∃ s : State, s.input.reset = false ∧ NoInterruptTaken s ∧ wordInRegion s.platform (fetchAddress s.pc) = true ∧
      decode (s.readWord (fetchAddress s.pc)) = .ok (.add 1 2 3) ∧ s.platform.noncanonicalFields = .ignore) ∧
    (∃ s : State, s.input.reset = false ∧ NoInterruptTaken s ∧ wordInRegion s.platform (fetchAddress s.pc) = true ∧
      decode (s.readWord (fetchAddress s.pc)) = .ok (.add 1 2 3) ∧
      encode (.add 1 2 3) = s.readWord (fetchAddress s.pc)) ∧
    ∃ s : State, s.input.reset = false ∧ NoInterruptTaken s ∧ wordInRegion s.platform (fetchAddress s.pc) = true ∧
      decode (s.readWord (fetchAddress s.pc)) = .ok (.mul 1 2 3) ∧ provides s.platform (.mul 1 2 3) = false :=
  ⟨⟨fetchState false 0x80611000#32 resetPlatform [] (some 0), by decide,
      noInterrupt_of_not_pending (k := 0) (by decide) (by decide), by decide⟩,
    ⟨fetchState true 0x80611000#32 refusingPlatform [0] (some 0), by decide, noInterrupt_of_supervisor (by decide), by decide⟩,
    ⟨fetchState false 0x886117FF#32 { refusingPlatform with implOptional := [] } [0] none, by decide,
      noInterrupt_of_none (by decide), by decide⟩⟩

theorem test_witness_PlacedWordIsTheOneExecuted :
    userState.mem.wf = true ∧ wordInRegion userState.platform (fetchAddress userState.pc) = true ∧
    (userState.platform.noncanonicalFields = .ignore ∧ decode 0x84A327FF#32 = .ok (.sub 3 4 5)) ∧
    (refusingPlatform.noncanonicalFields = .refuse ∧ decode 0x84A32000#32 = .ok (.sub 3 4 5) ∧
      encode (.sub 3 4 5) = 0x84A32000#32) := by decide

theorem test_witness_FetchOutsideMemRegionIsRefused :
    ∃ s : State, s.input.reset = false ∧ NoInterruptTaken s ∧ wordInRegion s.platform (fetchAddress s.pc) = false :=
  ⟨{ stateAt 0x1000#32 [] [] with platform := smallPlatform }, by decide, noInterrupt_of_none (by decide), by decide⟩

theorem test_witness_NoncanonicalWordIsRefusedWhereChosen :
    ∃ s : State, s.input.reset = false ∧ NoInterruptTaken s ∧ wordInRegion s.platform (fetchAddress s.pc) = true ∧
      s.platform.noncanonicalFields = .refuse ∧ decode (s.readWord (fetchAddress s.pc)) = .ok (.mul 1 2 3) ∧
      provides s.platform (.mul 1 2 3) = true ∧ encode (.mul 1 2 3) ≠ s.readWord (fetchAddress s.pc) :=
  ⟨fetchState false 0x88611001#32 refusingPlatform [] none, by decide, noInterrupt_of_none (by decide), by decide⟩

/-- An unassigned opcode in each mode, in user mode with a choice that is no kind. -/
theorem test_witness_UnassignedOpcodeRaisesIllegalInstruction :
    (∃ s : State, s.input.reset = false ∧ s.isSupervisor = false ∧ NoInterruptTaken s ∧
      wordInRegion s.platform (fetchAddress s.pc) = true ∧
      opcodeField (s.readWord (fetchAddress s.pc)) ∈ unassignedOpcodes) ∧
    ∃ s : State, s.input.reset = false ∧ s.isSupervisor = true ∧ NoInterruptTaken s ∧
      wordInRegion s.platform (fetchAddress s.pc) = true ∧
      opcodeField (s.readWord (fetchAddress s.pc)) ∈ unassignedOpcodes :=
  ⟨⟨fetchState false 0x04000000#32 resetPlatform [0] (some 1), by decide, by decide,
      noInterrupt_of_no_kind (k := 1) (by decide) (by decide), by decide⟩,
    ⟨fetchState true 0xFFFFFFFF#32 resetPlatform [0] (some 0), by decide, by decide, noInterrupt_of_supervisor (by decide),
      by decide⟩⟩

/-- An omitted DIV with unused bits set where they are refused, and an omitted MULC, in each mode. -/
theorem test_witness_OmittedOpcodeRaisesIllegalInstruction :
    (∃ s : State, s.input.reset = false ∧ s.isSupervisor = false ∧ NoInterruptTaken s ∧
      wordInRegion s.platform (fetchAddress s.pc) = true ∧
      IsOmittedOpcode s.platform (opcodeField (s.readWord (fetchAddress s.pc)))) ∧
    ∃ s : State, s.input.reset = false ∧ s.isSupervisor = true ∧ NoInterruptTaken s ∧
      wordInRegion s.platform (fetchAddress s.pc) = true ∧
      IsOmittedOpcode s.platform (opcodeField (s.readWord (fetchAddress s.pc))) :=
  ⟨⟨fetchState false 0x8C6117FF#32 { refusingPlatform with implOptional := [] } [] none, by decide, by decide,
      noInterrupt_of_none (by decide), by decide, .inr (.inl (by decide))⟩,
    ⟨fetchState true 0xC8610004#32 barePlatform [] none, by decide, by decide, noInterrupt_of_none (by decide), by decide,
      .inr (.inr (.inl (by decide)))⟩⟩

/-- A kind that was pending before, and one that is raised at this boundary. -/
theorem test_witness_ChosenPendingInterruptIsTakenInUserMode :
    ((interruptedState (some 0)).input.reset = false ∧ (interruptedState (some 0)).isSupervisor = false ∧
      (interruptedState (some 0)).input.take = some 0 ∧
      (interruptedState (some 0)).platform.irqVectors[0]? = some 0x00000008#32 ∧
      0 ∈ (interruptedState (some 0)).pending ∧ 0 ∉ (interruptedState (some 0)).input.cleared) ∧
    ∃ s : State, s.input.reset = false ∧ s.isSupervisor = false ∧ s.input.take = some 0 ∧
      s.platform.irqVectors[0]? = some 0x00000008#32 ∧ 0 ∈ s.input.raised :=
  ⟨by decide, { userState with inputs := [{ raised := [0], take := some 0 }] }, by decide⟩

theorem test_witness_NoInterruptIsTakenInSupervisorMode :
    ∃ (s : State) (e : EnvInput), s.isSupervisor = true ∧ s.inputs = e :: [] ∧ e.take = some 0 ∧ 0 ∈ s.pending :=
  ⟨{ supervisorState with pending := [0], inputs := [{ take := some 0 }] }, { take := some 0 }, by decide⟩

/-- A step that withdraws kind 0, and one that keeps it. -/
theorem test_witness_PendingSetBelongsToTheEnvironment :
    (∃ s t : State, step s = .next t ∧ 0 ∈ s.pending ∧ 0 ∈ s.input.cleared ∧ 0 ∉ t.pending) ∧
    ∃ s t : State, step s = .next t ∧ 0 ∈ s.pending ∧ 0 ∈ t.pending :=
  ⟨⟨{ interruptedState none with inputs := [{ cleared := [0] }] }, _, next_of_leaves (by decide), by decide⟩,
    ⟨interruptedState none, _, next_of_leaves (by decide), by decide⟩⟩

/-- An interrupt sets the Supervisor bit, a JMP clears it. -/
theorem test_witness_ModeChangesOnlyByExceptionsAndJmp :
    (∃ s t : State, step s = .next t ∧ s.isSupervisor = false ∧ t.isSupervisor = true) ∧
    ∃ s t : State, step s = .next t ∧ s.isSupervisor = true ∧ t.isSupervisor = false :=
  ⟨⟨interruptedState (some 0), _, next_of_leaves (by decide), by decide⟩,
    ⟨supervisorState.withFetchWord 32 0x6C410000, _, next_of_leaves (by decide), by decide⟩⟩

theorem test_witness_RegistersChangeOnlyByRcExceptionEntryAndReset :
    (∃ s t : State, step s = .next t ∧ t.reg xp ≠ s.reg xp ∧ s.isSupervisor = false) ∧
    ∃ s t : State, step s = .next t ∧ t.reg 3 ≠ s.reg 3 :=
  ⟨⟨interruptedState (some 0), _, next_of_leaves (by decide), by decide⟩,
    ⟨userState.withFetchWord 32 0x80611000, _, next_of_leaves (by decide), by decide⟩⟩

theorem test_witness_MemoryChangesOnlyByStore :
    ∃ s t : State, step s = .next t ∧ readByte t.mem 0x1000 ≠ readByte s.mem 0x1000 :=
  ⟨userState.withFetchWord 32 0x643D0000, _, next_of_leaves (by decide), by decide⟩

/-- `ST(R2, 0, R1)` stores the word of an ADD where the next instruction is fetched. -/
theorem test_witness_StoreIsSeenByTheNextFetch :
    ∃ s t : State, s.mem.wf = true ∧ exec (.st 2 0 1) s = .next t ∧
      dataAddress s.platform (effectiveAddress (s.reg 1) 0) = .ok (fetchAddress (nextPc s.pc)) ∧
      t.input.reset = false ∧ t.input.take = none ∧ s.platform.noncanonicalFields = .ignore ∧
      decode (s.reg 2) = .ok (.add 1 2 3) :=
  ⟨stateAt 0x100#32 [(1, 0x104#32), (2, 0x80611000#32)] [], _, by decide, next_of_leaves (by decide), by decide⟩

theorem test_witness_LoadReturnsTheWordJustStored :
    ∃ s t : State, s.mem.wf = true ∧ (3 : Reg) ≠ r31 ∧ exec (.st 1 4 sp) s = .next t :=
  ⟨userState, _, by decide, by decide, next_of_leaves (by decide)⟩

/-- Inside memory, and at the last word of the low half, where the updated PC wraps. -/
theorem test_witness_HandlerReturnsToUserProgram :
    (userState.isSupervisor = false ∧ userState.pc.toNat % 4 = 0 ∧ userState.pc.toNat ≠ 2 ^ 31 - 4) ∧
    ((stateAt 0x7FFFFFFC#32 [] []).isSupervisor = false ∧ (stateAt 0x7FFFFFFC#32 [] []).pc.toNat % 4 = 0 ∧
      (stateAt 0x7FFFFFFC#32 [] []).pc.toNat = 2 ^ 31 - 4) := by decide

theorem test_witness_AssertedResetRestartsAndKeepsMemory :
    State.input { userState with inputs := [{ reset := true }] } = { reset := true } := by decide

theorem test_witness_EveryStepKeepsTheInvariant :
    (∃ s t : State, s.wf = true ∧ step s = .next t ∧ t.mem ≠ s.mem) ∧
    ∃ s t : State, s.wf = true ∧ step s = .next t ∧ t.isSupervisor ≠ s.isSupervisor :=
  ⟨⟨userState.withFetchWord 32 0x643D0000, _, by decide, next_of_leaves (by decide), by decide⟩,
    ⟨interruptedState (some 0), _, by decide, next_of_leaves (by decide), by decide⟩⟩

theorem test_witness_PlatformNeverChanges : ∃ s t : State, step s = .next t :=
  ⟨userState.withFetchWord 32 0x80611000, _, next_of_leaves (by decide)⟩

/-- A stack inside memory, and one whose top is the last word of it. -/
theorem test_witness_PushStoresAndRaisesStackPointer :
    (userState.mem.wf = true ∧ (userState.reg sp).toNat % 4 = 0 ∧ wordInRegion userState.platform (userState.reg sp) = true) ∧
    (topOfMemoryState.mem.wf = true ∧ (topOfMemoryState.reg sp).toNat % 4 = 0 ∧
      wordInRegion topOfMemoryState.platform (topOfMemoryState.reg sp) = true) := by decide

theorem test_witness_PopReturnsWhatPushStored :
    userState.mem.wf = true ∧ (userState.reg sp).toNat % 4 = 0 ∧ wordInRegion userState.platform (userState.reg sp) = true ∧
    (1 : Reg) ≠ sp ∧ (2 : Reg) ≠ sp ∧ (2 : Reg) ≠ r31 := by decide

theorem test_witness_PrologueBuildsTheFrame :
    8191 ≤ 8191 ∧ topOfMemoryState.mem.wf = true ∧ (topOfMemoryState.reg sp).toNat % 4 = 0 ∧
    wordInRegion topOfMemoryState.platform (topOfMemoryState.reg sp) = true ∧
    wordInRegion topOfMemoryState.platform (topOfMemoryState.reg sp + 4#32) = true := by decide

theorem test_witness_SelfBranchInSupervisorModeEndsTheRun :
    ∃ s : State, ended .selfBranch s = true ∧ s.input.reset = false :=
  ⟨stateAt 0x80000034#32 [] [(0x34#32, 0x73FFFFFF#32)], by decide⟩

/-- Outside memory no branch to itself is executed, whatever the bytes there. -/
theorem test_not_ended_outside_memory : ended .selfBranch
    { stateAt 0x80001000#32 [] [(0x1000#32, 0x73FFFFFF#32)] with platform := smallPlatform } = false := by decide

end Sys2Proof.Machine
end

section
/-! PROOFS. The statements of the scope (rules R7, R9): the parameters of an implementation, and the optional opcodes it
omits. -/

namespace Sys2Proof.Machine

/-- No instruction changes the implementation's parameters: it writes a register and the PC, stores a word, or takes the
illegal instruction exception (rule R7). -/
theorem exec_platform {i : Instr} {s t : State} (h : exec i s = .next t) : t.platform = s.platform := by
  obtain ⟨rc, v, pc, -, -, rfl⟩ | ⟨rc, lit, ra, a, -, -, rfl⟩ | ⟨-, rfl⟩ := exec_next h
  · rw [setPc_platform, setReg_platform]
  · rw [advance_platform, writeWord_platform]
  · rw [takeException_platform]

/-- Settles O51: neither reset, nor an interrupt, nor an instruction, nor the illegal instruction exception writes the
platform. -/
theorem platformNeverChanges : Obligations.PlatformNeverChanges := by
  intro s t h
  obtain ⟨-, rfl⟩ | ⟨-, -, k, vec, -, -, -, rfl⟩ | ⟨-, -, -, ⟨i, -, hi⟩ | ⟨e, -, -, rfl⟩⟩ := step_next h
  · rw [reassertReset_platform, afterEnvironment_platform]
  · rw [takeException_platform, afterEnvironment_platform]
  · rw [exec_platform hi, afterEnvironment_platform]
  · rw [takeException_platform, afterEnvironment_platform]

/-- Settles O37: the omitted opcode's word decodes to an instruction the platform does not provide, so its unused bits are
not looked at (rule R91) and its meaning is to raise the exception. -/
theorem omittedOpcodeRaisesIllegalInstruction : Obligations.OmittedOpcodeRaisesIllegalInstruction := by
  intro s hreset hint hregion homitted
  obtain ⟨i, hdecode, hprovides⟩ := decode_omitted homitted
  have hraise : step s = raiseIllegalInstruction s.afterEnvironment :=
    calc step s = exec i s.afterEnvironment :=
          step_instruction hreset (interruptVector_none hint) hregion hdecode (.inr (.inl hprovides))
      _ = raiseIllegalInstruction s.afterEnvironment := exec_not_provided hprovides
  rw [hraise]
  exact raiseIllegalInstruction_raises s.afterEnvironment

end Sys2Proof.Machine
end

section
/-! PROOFS. The statements of the architectural state (rules R20 to R36): the registers, the PC, what reset leaves, and
what every step keeps. -/

namespace Sys2Proof.Machine

/-! ### The same state in either mode -/

@[simp] theorem inMode_regs (s : State) (b : Bool) : (s.inMode b).regs = s.regs := rfl
@[simp] theorem inMode_pc (s : State) (b : Bool) : (s.inMode b).pc = BitVec.ofBool b ++ s.pc.extractLsb' 0 31 := rfl
@[simp] theorem inMode_mem (s : State) (b : Bool) : (s.inMode b).mem = s.mem := rfl
@[simp] theorem inMode_pending (s : State) (b : Bool) : (s.inMode b).pending = s.pending := rfl
@[simp] theorem inMode_platform (s : State) (b : Bool) : (s.inMode b).platform = s.platform := rfl
@[simp] theorem inMode_inputs (s : State) (b : Bool) : (s.inMode b).inputs = s.inputs := rfl
@[simp] theorem inMode_draws (s : State) (b : Bool) : (s.inMode b).draws = s.draws := rfl
@[simp] theorem inMode_reg (s : State) (b : Bool) (r : Reg) : (s.inMode b).reg r = s.reg r := rfl
@[simp] theorem inMode_readWord (s : State) (b : Bool) (a : Word) : (s.inMode b).readWord a = s.readWord a := rfl

/-- The fetch address is made of the 31 address bits of the PC (rule R25). -/
theorem fetchAddress_append_addressBits (b : BitVec 1) (p : Word) :
    fetchAddress (b ++ p.extractLsb' 0 31) = fetchAddress p := by
  apply BitVec.eq_of_toNat_eq
  rw [fetchAddress_toNat, fetchAddress_toNat, append_toNat, addressBits_toNat]
  omega

theorem fetchEvent_inMode (s : State) (b : Bool) : fetchEvent (s.inMode b) = fetchEvent s := by
  simp only [fetchEvent, inMode_pc, fetchAddress_append_addressBits, inMode_platform, inMode_readWord]

/-! ### What keeps the invariant -/

/-- A register and a PC that is a multiple of 4 written: the shape of every instruction but ST. -/
theorem setReg_setPc_wf {s : State} (h : s.wf = true) (rc : Reg) (v : Word) {pc : Word} (hpc : isAligned pc = true) :
    ((s.setReg rc v).setPc pc).wf = true := by
  obtain ⟨hmem, -, hpending, hplatform⟩ := (wf_iff s).mp h
  simp only [wf_iff, setPc_mem, setPc_pc, setPc_pending, setPc_platform, setReg_mem, setReg_pending, setReg_platform]
  exact ⟨hmem, hpc, hpending, hplatform⟩

/-- A word stored inside the address space and the PC advanced: the shape of ST. -/
theorem writeWord_advance_wf {s : State} (h : s.wf = true) {a : Word} (ha : a.toNat + 3 < 2 ^ 32) (v : Word) :
    (s.writeWord a v).advance.wf = true := by
  obtain ⟨hmem, hpc, hpending, hplatform⟩ := (wf_iff s).mp h
  exact (wf_iff _).mpr ⟨writeWord_wf _ _ _ _ ha hmem, nextPc_aligned hpc, hpending, hplatform⟩

/-- Exception entry keeps the invariant, whatever the vector: it masks the low two bits (rule R290). -/
theorem takeException_wf {s : State} (h : s.wf = true) (vec : Word) : (takeException vec s).wf = true :=
  setReg_setPc_wf h _ _ (vectorPc_aligned vec)

theorem reassertReset_wf {s : State} (h : s.wf = true) : (reassertReset s).wf = true := by
  obtain ⟨hmem, -, hpending, hplatform⟩ := (wf_iff s).mp h
  simp only [wf_iff, reassertReset_mem, reassertReset_pc, reassertReset_pending, reassertReset_platform]
  exact ⟨hmem, by decide, hpending, hplatform⟩

theorem exec_wf {i : Instr} {s t : State} (hs : s.wf = true) (h : exec i s = .next t) : t.wf = true := by
  obtain ⟨rc, v, pc, -, hpc, rfl⟩ | ⟨rc, lit, ra, a, -, ha, rfl⟩ | ⟨-, rfl⟩ := exec_next h
  · obtain ⟨-, haligned, -, -⟩ := (wf_iff s).mp hs
    exact setReg_setPc_wf hs rc v (nextPcOf_aligned hpc haligned)
  · obtain ⟨-, hregion⟩ := dataAddress_ok ha
    exact writeWord_advance_wf hs (wordInRegion_lt _ _ hregion) _
  · exact takeException_wf hs _

/-- Settles O49: what the environment does keeps the invariant, and so does whatever the step does after that. -/
theorem everyStepKeepsTheInvariant : Obligations.EveryStepKeepsTheInvariant := by
  intro s t hs h
  have henv : s.afterEnvironment.wf = true := afterEnvironment_wf hs
  obtain ⟨-, rfl⟩ | ⟨-, -, k, vec, -, -, -, rfl⟩ | ⟨-, -, -, ⟨i, -, hi⟩ | ⟨e, -, -, rfl⟩⟩ := step_next h
  · exact reassertReset_wf henv
  · exact takeException_wf henv vec
  · exact exec_wf henv hi
  · exact takeException_wf henv _

/-! ### Which registers change -/

/-- Where exception entry changes a register, that is XP, and the machine is in supervisor mode with the updated PC in it
(rule R290). -/
theorem takeException_reg_ne {vec : Word} {s : State} {r : Reg} (h : (takeException vec s).reg r ≠ s.reg r) :
    r = xp ∧ (takeException vec s).isSupervisor = true ∧ (takeException vec s).reg xp = nextPc s.pc := by
  have entry := takeException_enters vec s
  refine ⟨?_, vectorPc_supervisor vec, entry.exceptionPointer⟩
  by_contra hr
  exact h (entry.others r hr)

/-- Where an instruction changes a register, that is its Rc, or the instruction took the illegal instruction exception
(rules R23, R36). -/
theorem exec_reg_ne {i : Instr} {s t : State} {r : Reg} (h : exec i s = .next t) (hr : t.reg r ≠ s.reg r) :
    destination? i = some r ∨ (s.isSupervisor = false ∧ t = takeException s.platform.vecIllop s) := by
  obtain ⟨rc, v, pc, hd, -, rfl⟩ | ⟨rc, lit, ra, a, -, -, rfl⟩ | hexc := exec_next h
  · have hrc : r = rc := by
      by_contra hne
      exact hr ((setReg_setPc_writesOnly s rc v pc).others r hne)
    exact .inl (hrc ▸ hd)
  · exact absurd (by rw [advance_reg, writeWord_reg]) hr
  · exact .inr hexc

/-- Settles O42: the environment changes no register, exception entry changes XP only, and an instruction its Rc only. -/
theorem registersChangeOnlyByRcExceptionEntryAndReset :
    Obligations.RegistersChangeOnlyByRcExceptionEntryAndReset := by
  intro s t r h hr
  have entry : ∀ vec, s.isSupervisor = false → t = takeException vec s.afterEnvironment →
      r = xp ∧ s.isSupervisor = false ∧ t.isSupervisor = true ∧ t.reg xp = nextPc s.pc := by
    rintro vec huser rfl
    obtain ⟨hxp, hsup, hlink⟩ := takeException_reg_ne (s := s.afterEnvironment) hr
    exact ⟨hxp, huser, hsup, hlink⟩
  obtain ⟨hreset, -⟩ | ⟨-, huser, k, vec, -, -, -, ht⟩ | ⟨-, -, -, ⟨i, hdecode, hi⟩ | ⟨e, -, huser, ht⟩⟩ := step_next h
  · exact .inl hreset
  · exact .inr (.inl (entry vec huser ht))
  · rcases exec_reg_ne (s := s.afterEnvironment) hi hr with hdest | ⟨huser, ht⟩
    · exact .inr (.inr ⟨i, hdecode, hdest⟩)
    · exact .inr (.inl (entry _ huser ht))
  · exact .inr (.inl (entry _ huser ht))

/-! ### Registers, the PC, the fetch -/

/-- Settles O8, by the four laws of reading a register after a write. -/
theorem registerThirtyOneIsZeroOthersAreStorage : Obligations.RegisterThirtyOneIsZeroOthersAreStorage := by
  intro s r v
  exact ⟨reg_r31 s, setReg_r31 s v, reg_setReg_same s r v, fun q hq => reg_setReg_other s r q v hq⟩

/-- Settles O9: the two address computations of rules R26 and R27, read as numbers. -/
theorem updatedPcAndRelativeTargetStayInTheirMode : Obligations.UpdatedPcAndRelativeTargetStayInTheirMode :=
  ⟨nextPc_toNat, relTarget_toNat⟩

/-- Settles O10: neither the fetch address nor the word there depends on the Supervisor bit. -/
theorem fetchIgnoresSupervisorBit : Obligations.FetchIgnoresSupervisorBit := by
  intro s supervisor
  refine ⟨fetchEvent_inMode s supervisor, fun haligned => ?_⟩
  rw [fetchAddress_toNat]
  omega

/-! ### What reset leaves -/

/-- Settles O47: the mode and the first fetch address follow from the PC that reset leaves. -/
theorem resetLeavesPcAndSupervisorMode : Obligations.ResetLeavesPcAndSupervisorMode := by
  have hpc : State.reset.pc = 0x80000000#32 := rfl
  refine ⟨hpc, ?_, ?_, reg_r31 _⟩
  · exact (supervisor_iff _).mpr (by rw [hpc]; decide)
  · rw [fetchAddress_toNat, hpc]
    decide

/-- Settles O50, part by part of the invariant. -/
theorem resetMeetsTheInvariant : Obligations.ResetMeetsTheInvariant := by
  have hpc : isAligned State.reset.pc = true := by decide
  have hpending : kindsWf 0 State.reset.platform.irqVectors.length State.reset.pending = true := rfl
  have hplatform : State.reset.platform.wf = true := by decide
  exact (wf_iff State.reset).mpr ⟨reset_mem_wf, hpc, hpending, hplatform⟩

end Sys2Proof.Machine
end

section
/-! PROOFS. The statements of memory (rules R50 to R68): what a store leaves in memory, which steps change memory, what a
later load or fetch sees of a store, and where an access has no meaning. -/

namespace Sys2Proof.Machine

/-! ### A word written and read back -/

/-- Inside `MEM_REGION` a word just written is read back, aligned or not (rules R54, R55). -/
theorem readWord_of_writeWord {s : State} {a : Word} (hmem : s.mem.wf = true)
    (hregion : wordInRegion s.platform a = true) (v : Word) : (s.writeWord a v).readWord a = v :=
  readWord_writeWord_same _ _ _ _ (wordInRegion_lt _ _ hregion) hmem

/-- Inside `MEM_REGION` the four bytes of a word just written are its bytes in the platform's byte order (rule R55). -/
theorem readByte_of_writeWord {s : State} {a : Word} (hmem : s.mem.wf = true)
    (hregion : wordInRegion s.platform a = true) (v : Word) {k : Nat} (hk : k < 4) :
    readByte (s.writeWord a v).mem (a.toNat + k) = byteOfWord s.platform.byteOrder v k :=
  readByte_writeWord_same _ _ _ _ k hk (wordInRegion_lt _ _ hregion) hmem

theorem byteOfWord_littleEndian_toNat (v : Word) (k : Nat) :
    (byteOfWord .littleEndian v k).toNat = v.toNat / 2 ^ (8 * k) % 2 ^ 8 := by
  rw [byteOfWord, BitVec.extractLsb'_toNat, Nat.shiftRight_eq_div_pow]

theorem byteOfWord_bigEndian_toNat (v : Word) (k : Nat) :
    (byteOfWord .bigEndian v k).toNat = v.toNat / 2 ^ (8 * (3 - k)) % 2 ^ 8 := by
  rw [byteOfWord, BitVec.extractLsb'_toNat, Nat.shiftRight_eq_div_pow]

/-- Settles O11, by the laws of a word written: read back, its own four bytes, and every other byte. -/
theorem memoryReadReturnsWhatWriteStored : Obligations.MemoryReadReturnsWhatWriteStored := by
  intro s a v hmem hregion
  exact ⟨readWord_of_writeWord hmem hregion v, fun k hk => readByte_of_writeWord hmem hregion v hk,
    fun x hx => readByte_writeWord_other _ _ _ _ x hx⟩

/-- Settles O12: the stored byte is the word's byte in the platform's byte order, read as a number. -/
theorem byteOrderPlacesBytes : Obligations.ByteOrderPlacesBytes := by
  intro s a v k hmem hregion hk
  rw [readByte_of_writeWord hmem hregion v hk]
  constructor
  · intro hlittle
    rw [hlittle, byteOfWord_littleEndian_toNat]
  · intro hbig
    rw [hbig, byteOfWord_bigEndian_toNat]

/-! ### Which bytes change -/

/-- Where an instruction changes a byte, it is an ST and the byte is one of the four it addresses: every other meaning
writes registers and the PC only (rules R50, R192). -/
theorem exec_readByte_ne {i : Instr} {s t : State} {x : Nat} (h : exec i s = .next t)
    (hx : readByte t.mem x ≠ readByte s.mem x) :
    ∃ rc lit ra a, i = .st rc lit ra ∧ dataAddress s.platform (effectiveAddress (s.reg ra) lit) = .ok a ∧
      a.toNat ≤ x ∧ x < a.toNat + 4 := by
  obtain ⟨rc, v, pc, -, -, rfl⟩ | ⟨rc, lit, ra, a, hi, ha, rfl⟩ | ⟨-, rfl⟩ := exec_next h
  · exact absurd (by rw [setPc_mem, setReg_mem]) hx
  · have hrange : a.toNat ≤ x ∧ x < a.toNat + 4 := by
      by_contra hout
      exact hx (readByte_writeWord_other _ _ _ _ x hout)
    exact ⟨rc, lit, ra, a, hi, ha, hrange⟩
  · exact absurd (by rw [takeException_mem]) hx

/-- Settles O43: reset, the environment and exception entry keep memory, so the byte was changed by the instruction at
the PC. -/
theorem memoryChangesOnlyByStore : Obligations.MemoryChangesOnlyByStore := by
  intro s t x h hx
  obtain ⟨-, rfl⟩ | ⟨-, -, k, vec, -, -, -, rfl⟩ | ⟨-, -, -, ⟨i, hdecode, hi⟩ | ⟨e, -, -, rfl⟩⟩ := step_next h
  · exact absurd (by rw [reassertReset_mem, afterEnvironment_mem]) hx
  · exact absurd (by rw [takeException_mem, afterEnvironment_mem]) hx
  · obtain ⟨rc, lit, ra, a, rfl, ha, hrange⟩ := exec_readByte_ne (s := s.afterEnvironment) hi hx
    exact ⟨rc, lit, ra, a, hdecode, ha, hrange⟩
  · exact absurd (by rw [takeException_mem, afterEnvironment_mem]) hx

/-! ### What follows a store -/

/-- An ST that answers a next state stored at the address it accesses, inside `MEM_REGION`, and went on (rule R192). -/
theorem exec_st_next {rc ra : Reg} {lit : Int} {s t : State} (h : exec (.st rc lit ra) s = .next t) :
    ∃ a, dataAddress s.platform (effectiveAddress (s.reg ra) lit) = .ok a ∧ wordInRegion s.platform a = true ∧
      t = (s.writeWord a (s.reg rc)).advance := by
  obtain ⟨a, ha, ht⟩ := storeTo_next h
  obtain ⟨-, hregion⟩ := dataAddress_ok ha
  exact ⟨a, ha, hregion, ht⟩

/-- The word an ST stored is read back in the state it leaves (rules R54, R62). -/
theorem readWord_of_writeWord_advance {s : State} {a : Word} (hmem : s.mem.wf = true)
    (hregion : wordInRegion s.platform a = true) (v : Word) : (s.writeWord a v).advance.readWord a = v :=
  readWord_of_writeWord hmem hregion v

/-- Settles O44: the store went to the next fetch address, so the next fetch reads the stored word there (rule R65). -/
theorem storeIsSeenByTheNextFetch : Obligations.StoreIsSeenByTheNextFetch := by
  intro s t ra rc lit i hmem hst haddress hreset htake hignore hdecode
  obtain ⟨a, ha, hregion, rfl⟩ := exec_st_next hst
  obtain rfl : a = fetchAddress (nextPc s.pc) := Except.ok.inj (ha.symm.trans haddress)
  refine step_instruction hreset ?_ hregion ?_ (.inl hignore)
  · rw [htake]
    rfl
  · rw [advance_pc, writeWord_pc, readWord_of_writeWord_advance hmem hregion]
    exact hdecode

/-- Settles O45: the ST writes no register and no parameter, so the LD accesses the address the ST stored at. -/
theorem loadReturnsTheWordJustStored : Obligations.LoadReturnsTheWordJustStored := by
  intro s t ra rc rd lit hmem hrd hst
  obtain ⟨a, ha, hregion, rfl⟩ := exec_st_next hst
  obtain ⟨u, hu, hwrites⟩ := loadFrom_writesOnly ha rd (s.writeWord a (s.reg rc)).advance
  refine ⟨u, hu, ?_⟩
  rw [hwrites.destination, if_neg hrd, readWord_of_writeWord_advance hmem hregion]

/-! ### Where an access has no meaning -/

/-- Outside `MEM_REGION` there is no word address (rule R68). -/
theorem regionAddress_outside {p : Platform} {a : Word} (hregion : wordInRegion p a = false) :
    regionAddress p a = .error .outsideMemRegion := by
  simp [regionAddress, hregion]

theorem dataAddress_aligned_outside {p : Platform} {ea : Word} (haligned : isAligned ea = true)
    (hregion : wordInRegion p ea = false) : dataAddress p ea = .error .outsideMemRegion := by
  rw [dataAddress, if_pos haligned, regionAddress_outside hregion]

theorem dataAddress_misaligned_refuse {p : Platform} {ea : Word} (hmis : ¬ isAligned ea = true)
    (hp : p.misalignedData = .refuse) : dataAddress p ea = .error .misalignedData := by
  rw [dataAddress, if_neg hmis, hp]

theorem dataAddress_masked_outside {p : Platform} {ea : Word} (hmis : ¬ isAligned ea = true)
    (hp : p.misalignedData = .maskLowTwoBits) (hregion : wordInRegion p (alignWord ea) = false) :
    dataAddress p ea = .error .outsideMemRegion := by
  rw [dataAddress, if_neg hmis, hp]
  exact regionAddress_outside hregion

/-- LD and ST at an address they may not access are refused for the reason `dataAddress` gives (rule R193). -/
theorem exec_ld_st_refused {ra : Reg} {lit : Int} {s : State} {r : Refusal}
    (h : dataAddress s.platform (effectiveAddress (s.reg ra) lit) = .error r) (rc : Reg) :
    exec (.ld ra lit rc) s = .refused r ∧ exec (.st rc lit ra) s = .refused r := by
  constructor
  · change loadFrom _ rc s = _
    rw [h, loadFrom]
  · change storeTo _ (s.reg rc) s = _
    rw [h, storeTo]

/-- LDR at an address it may not access is refused for the reason `dataAddress` gives (rule R193). -/
theorem exec_ldr_refused {lit : Int} {s : State} {r : Refusal}
    (h : dataAddress s.platform (ldrAddress (nextPc s.pc) lit) = .error r) (rc : Reg) :
    exec (.ldr lit rc) s = .refused r := by
  change loadFrom _ rc s = _
  rw [h, loadFrom]

/-- Settles O27: each clause is a case of `dataAddress`; the address of LDR is a multiple of 4 where the PC is. -/
theorem loadAndStoreRefuseWhereUndefined : Obligations.LoadAndStoreRefuseWhereUndefined := by
  refine ⟨fun ra rc lit s => ⟨?misaligned, ?aligned, ?masked⟩, ?relative⟩
  case misaligned =>
    intro hmis hp
    exact exec_ld_st_refused (dataAddress_misaligned_refuse (mt (isAligned_iff _).mp hmis) hp) rc
  case aligned =>
    intro haligned hregion
    exact exec_ld_st_refused (dataAddress_aligned_outside ((isAligned_iff _).mpr haligned) hregion) rc
  case masked =>
    intro a hmis hp ha hregion
    obtain rfl : a = alignWord (effectiveAddress (s.reg ra) lit) :=
      BitVec.eq_of_toNat_eq (by rw [ha, alignWord_toNat])
    exact exec_ld_st_refused (dataAddress_masked_outside (mt (isAligned_iff _).mp hmis) hp hregion) rc
  case relative =>
    intro rc lit s hpc hregion
    have haligned : isAligned (ldrAddress (nextPc s.pc) lit) = true :=
      ldrAddress_aligned (nextPc_aligned ((isAligned_iff _).mpr hpc)) lit
    exact exec_ldr_refused (dataAddress_aligned_outside haligned hregion) rc

/-- Settles O34: with no reset and no interrupt in its way the step is the fetch, whose address is outside. -/
theorem fetchOutsideMemRegionIsRefused : Obligations.FetchOutsideMemRegionIsRefused := by
  intro s hreset hint hregion
  exact step_outside hreset (interruptVector_none hint) hregion

end Sys2Proof.Machine
end

section
/-! PROOFS. The statements of encoding (rules R80 to R98): what the decoder reads from a word, which words it rejects, what
the encoder keeps of a word, the literals an assembler accepts, and the literal it makes of a label. -/

namespace Sys2Proof.Laws.OpcodeField

/-- Bits 31:26 of every canonical word are the instruction's opcode, put together from the 35 laws. -/
theorem opcodeField_encode (i : Instr) : opcodeField (encode i) = opcodeOf i := by
  change Statement i
  cases i
  exacts [add .., addc .., and .., andc .., beq .., bne .., cmpeq .., cmpeqc .., cmple .., cmplec .., cmplt .., cmpltc ..,
    div .., divc .., jmp .., ld .., ldr .., mul .., mulc .., or .., orc .., shl .., shlc .., shr .., shrc .., sra ..,
    srac .., st .., sub .., subc .., xor .., xorc .., xnor .., xnorc .., privileged ..]

end Sys2Proof.Laws.OpcodeField

namespace Sys2Proof.Machine

open Laws.OpcodeField (opcodeOf opcodeField_encode)

/-! ### What the decoder reads from a word (rules R83, R84) -/

/-- The operands of the instruction are the fields of the word that its format has (rules R81 to R83, R89). -/
def HasOperandsOf (i : Instr) (w : Word) : Prop :=
  match i with
  | .add ra rb rc | .sub ra rb rc | .mul ra rb rc | .div ra rb rc | .cmpeq ra rb rc | .cmplt ra rb rc | .cmple ra rb rc
  | .and ra rb rc | .or ra rb rc | .xor ra rb rc | .xnor ra rb rc | .shl ra rb rc | .shr ra rb rc | .sra ra rb rc =>
    ra = raField w ∧ rb = rbField w ∧ rc = rcField w
  | .addc ra lit rc | .subc ra lit rc | .mulc ra lit rc | .divc ra lit rc | .cmpeqc ra lit rc | .cmpltc ra lit rc
  | .cmplec ra lit rc | .andc ra lit rc | .orc ra lit rc | .xorc ra lit rc | .xnorc ra lit rc | .shlc ra lit rc
  | .shrc ra lit rc | .srac ra lit rc | .beq ra lit rc | .bne ra lit rc | .ld ra lit rc | .st rc lit ra =>
    ra = raField w ∧ lit = litField w ∧ rc = rcField w
  | .jmp ra rc => ra = raField w ∧ rc = rcField w
  | .ldr lit rc => lit = litField w ∧ rc = rcField w
  | .privileged form => form = formField w

/-- The decoder's answer is the one instruction with the word's opcode and the word's fields. -/
theorem decode_ok_iff (w : Word) (i : Instr) :
    decode w = .ok i ↔ opcodeField w = opcodeOf i ∧ HasOperandsOf i w := by
  constructor
  · intro h
    unfold decode at h
    split at h <;> cases h <;> exact ⟨‹_›, by simp [HasOperandsOf]⟩
  · rintro ⟨hop, hargs⟩
    unfold decode
    rw [hop]
    cases i with
    | jmp | ldr => obtain ⟨rfl, rfl⟩ := hargs; rfl
    | privileged => obtain rfl := hargs; rfl
    | _ => obtain ⟨rfl, rfl, rfl⟩ := hargs; rfl

/-! ### Decode of encode -/

/-- The canonical word of a well-formed instruction holds its operands: no literal is truncated (rule R97). -/
theorem encode_hasOperands {i : Instr} (h : i.wf = true) : HasOperandsOf i (encode i) := by
  have literal : ∀ op rc ra lit, fitsLiteral lit = true → lit = litField (encodeLiteral op rc ra lit) := by
    intro op rc ra lit hlit
    rw [encodeLiteral_eq, litField_literalWord, toInt_ofInt_of_fitsLiteral hlit]
  cases i with
  | privileged form => exact (formField_privilegedWord form).symm
  | jmp ra rc => exact ⟨(raField_literalWord ..).symm, (rcField_literalWord ..).symm⟩
  | ldr lit rc => exact ⟨literal _ _ _ _ h, (rcField_literalWord ..).symm⟩
  | add | sub | mul | div | cmpeq | cmplt | cmple | and | or | xor | xnor | shl | shr | sra =>
    exact ⟨(raField_operateWord ..).symm, (rbField_operateWord ..).symm, (rcField_operateWord ..).symm⟩
  | _ => exact ⟨(raField_literalWord ..).symm, literal _ _ _ _ h, (rcField_literalWord ..).symm⟩

/-- Settles O1: the canonical word has the instruction's opcode and operands, which are all the decoder reads. -/
theorem decodeOfEncodeIsTheInstruction : Obligations.DecodeOfEncodeIsTheInstruction := by
  intro i hwf
  exact (decode_ok_iff _ i).mpr ⟨opcodeField_encode i, encode_hasOperands hwf⟩

/-! ### Encode of decode -/

/-- Operands taken from a word are well formed: its literal field holds only literals that fit. -/
theorem hasOperands_wf {i : Instr} {w : Word} (h : HasOperandsOf i w) : i.wf = true := by
  cases i with
  | jmp | privileged => rfl
  | ldr => obtain ⟨rfl, -⟩ := h; exact fitsLiteral_litField w
  | add | sub | mul | div | cmpeq | cmplt | cmple | and | or | xor | xnor | shl | shr | sra => rfl
  | _ => obtain ⟨-, rfl, -⟩ := h; exact fitsLiteral_litField w

/-- The canonical word of an instruction with operands taken from `w`, by format: a privileged word; a word of the Operate
class with the three register fields of `w`; a word of a literal class with the Rc of `w`, its Ra but for LDR, and its literal
but for JMP (rules R81, R82, R89). What is said of the opcode's class bits keeps the three apart. -/
theorem encode_of_hasOperands {i : Instr} {w : Word} (h : HasOperandsOf i w) :
    (opcodeOf i = 0x00#6 ∧ encode i = 0x00#6 ++ formField w) ∨
    ((opcodeOf i).extractLsb' 4 1 ≠ 0b1#1 ∧ opcodeOf i ≠ 0x00#6 ∧
      encode i = operateWord (opcodeOf i) (rcField w) (raField w) (rbField w) 0#11) ∨
    ((opcodeOf i).extractLsb' 4 2 ≠ 0b10#2 ∧ opcodeOf i ≠ 0x00#6 ∧
      ∃ ra lit, encode i = literalWord (opcodeOf i) (rcField w) ra lit ∧ (opcodeOf i ≠ 0x1F#6 → ra = raField w) ∧
        (opcodeOf i ≠ 0x1B#6 → lit.toInt = litField w)) := by
  have literal : BitVec.ofInt 16 (litField w) = w.extractLsb' 0 16 := BitVec.ofInt_toInt
  cases i with
  | privileged => obtain rfl := h; exact .inl ⟨rfl, rfl⟩
  | jmp =>
    obtain ⟨rfl, rfl⟩ := h
    exact .inr (.inr ⟨by simp [opcodeOf], by simp [opcodeOf], _, _, rfl, fun _ => rfl, fun hne => absurd rfl hne⟩)
  | ldr =>
    obtain ⟨rfl, rfl⟩ := h
    exact .inr (.inr ⟨by simp [opcodeOf], by simp [opcodeOf], _, _, rfl, fun hne => absurd rfl hne,
      fun _ => congrArg _ literal⟩)
  | add | sub | mul | div | cmpeq | cmplt | cmple | and | or | xor | xnor | shl | shr | sra =>
    obtain ⟨rfl, rfl, rfl⟩ := h
    exact .inr (.inl ⟨by simp [opcodeOf], by simp [opcodeOf], rfl⟩)
  | _ =>
    obtain ⟨rfl, rfl, rfl⟩ := h
    exact .inr (.inr ⟨by simp [opcodeOf], by simp [opcodeOf], _, _, rfl, fun _ => rfl, fun _ => congrArg _ literal⟩)

/-- A word is its opcode and the 26 bits below it. -/
theorem opcodeField_append_formField (w : Word) : opcodeField w ++ formField w = w := by
  refine BitVec.eq_of_getLsbD_eq fun k hk => ?_
  rw [BitVec.getLsbD_append, opcodeField, formField, BitVec.getLsbD_extractLsb', BitVec.getLsbD_extractLsb']
  split
  · simp [*]
  · rw [Nat.add_sub_cancel' (by omega), decide_eq_true (by omega), Bool.true_and]

/-- Settles O2, format by format: in each the canonical word is put together from the fields of `w` that the clauses name. -/
theorem encodeOfDecodeKeepsUsedBits : Obligations.EncodeOfDecodeKeepsUsedBits := by
  intro w i h
  obtain ⟨hop, hargs⟩ := (decode_ok_iff w i).mp h
  refine ⟨hasOperands_wf hargs, by rw [opcodeField_encode, hop], ?_⟩
  rw [hop]
  obtain ⟨hzero, he⟩ | ⟨hclass, hzero, he⟩ | ⟨hclass, hzero, ra, lit, he, hra, hlit⟩ := encode_of_hasOperands hargs
  · have hw : encode i = w := by rw [he, ← hzero, ← hop, opcodeField_append_formField]
    rw [hw]
    exact ⟨fun _ => rfl, fun _ => rfl, fun _ _ => rfl, fun _ => rfl, fun _ _ => rfl⟩
  · rw [he, rcField_operateWord, raField_operateWord, rbField_operateWord]
    exact ⟨fun h0 => absurd h0 hzero, fun _ => rfl, fun _ _ => rfl, fun _ => rfl, fun h1 => absurd h1 hclass⟩
  · rw [he, rcField_literalWord, raField_literalWord, litField_literalWord]
    exact ⟨fun h0 => absurd h0 hzero, fun _ => rfl, fun _ => hra, fun hrb => absurd hrb hclass, fun _ => hlit⟩

/-! ### Which words the decoder rejects (rules R87, R90) -/

/-- A rejected word is rejected by its opcode. -/
theorem decode_error {w : Word} {e : DecodeError} (h : decode w = .error e) : e = .illegalOpcode (opcodeField w) := by
  unfold decode at h
  split at h <;> cases h
  rfl

/-- Bits 31:26 alone say whether a word is an instruction: a word with the opcode of one is one (rule R87). -/
theorem decode_ok_of_opcodeField_eq {w w' : Word} {i : Instr} (hop : opcodeField w' = opcodeField w)
    (h : decode w = .ok i) : ∃ j, decode w' = .ok j := by
  unfold decode at h ⊢
  rw [hop]
  split at h <;> cases h <;> exact ⟨_, rfl⟩

/-- One word of each opcode, its other bits zero, checked against the list of rule R90. -/
theorem decode_zeroes_ok_iff : ∀ op : BitVec 6,
    (decode (literalWord op 0 0 0#16)).isOk = true ↔ op ∉ unassignedOpcodes := by
  decide

/-- A word is an instruction unless its opcode is unassigned, whatever its other bits (rules R87, R90). -/
theorem decode_ok_iff_assigned (w : Word) : (∃ i, decode w = .ok i) ↔ opcodeField w ∉ unassignedOpcodes := by
  have hop : opcodeField (literalWord (opcodeField w) 0 0 0#16) = opcodeField w := opcodeField_literalWord ..
  rw [← decode_zeroes_ok_iff]
  constructor
  · rintro ⟨i, h⟩
    obtain ⟨j, hj⟩ := decode_ok_of_opcodeField_eq hop h
    rw [hj]
    rfl
  · intro h
    cases hz : decode (literalWord (opcodeField w) 0 0 0#16) with
    | error e => rw [hz] at h; cases h
    | ok i => exact decode_ok_of_opcodeField_eq hop.symm hz

/-- Settles O3: a word with an unassigned opcode is no instruction, so the decoder answers the opcode as its error. -/
theorem decodeRejectsExactlyUnassignedOpcodes : Obligations.DecodeRejectsExactlyUnassignedOpcodes := by
  intro w
  refine ⟨fun hun => ?_, (decode_ok_iff_assigned w).mpr⟩
  cases hw : decode w with
  | ok i => exact absurd hun ((decode_ok_iff_assigned w).mp ⟨i, hw⟩)
  | error e => rw [decode_error hw]

/-! ### Literals (rules R95, R97) -/

theorem wf_of_literal {i : Instr} {lit : Int} (h : i.literal? = some lit) : i.wf = fitsLiteral lit := by
  rw [Instr.wf, h]

/-- Settles O5: a well-formed instruction is assembled to its canonical word, which decodes to it by O1. -/
theorem assemblerRefusesLiteralsOutOfRange : Obligations.AssemblerRefusesLiteralsOutOfRange := by
  intro i
  constructor
  · intro lit hlit hout
    rw [assemble, wf_of_literal hlit, if_neg (mt (fitsLiteral_iff lit).mp hout)]
  · intro lit hlit hin
    have hwf : i.wf = true := (wf_of_literal hlit).trans ((fitsLiteral_iff lit).mpr hin)
    exact ⟨encode i, if_pos hwf, decodeOfEncodeIsTheInstruction i hwf⟩

/-- The literal of a label counts the words from the updated PC to the label (rule R95). -/
theorem literalOfLabel_some {here label : Nat} {lit : Int} (h : literalOfLabel here label = some lit) :
    (label : Int) = here + 4 + 4 * lit := by
  unfold literalOfLabel checkedLiteral at h
  split at h
  · split at h
    · have hlit := Option.some.inj h
      omega
    · cases h
  · cases h

/-- Settles O6: the branch adds four times the literal to the updated PC, and the sum is the label, which the 31 address
bits hold whole. -/
theorem labelLiteralReachesLabel : Obligations.LabelLiteralReachesLabel := by
  intro here label lit p hhere hlabel haligned hpc hlit
  have hsum : (label : Int) = here + 4 + 4 * lit := literalOfLabel_some hlit
  have hnext := nextPc_toNat p
  have htarget := relTarget_toNat (nextPc p) lit
  exact ⟨by omega, hsum⟩

/-! ### Fixed words, and words the platform refuses -/

/-- Settles O4: the decoder is evaluated on each of the eight words. -/
theorem sampleWordsDecode : Obligations.SampleWordsDecode :=
  ⟨by decide, by decide, by decide, by decide, by decide, by decide, by decide, by decide⟩

/-- Settles O35: with no reset and no interrupt in its way the step is the fetch, which refuses the word. -/
theorem noncanonicalWordIsRefusedWhereChosen : Obligations.NoncanonicalWordIsRefusedWhereChosen := by
  intro s i hreset hint hregion hrefuse hdecode hprovides hnoncanonical
  exact step_noncanonical hreset (interruptVector_none hint) hregion hdecode hrefuse hprovides hnoncanonical

end Sys2Proof.Machine
end

section
/-! PROOFS. The statements of arithmetic (rules R110 to R120): sums, differences and products modulo 2^32, the readings of
division, division by zero, and the optional opcodes an implementation omits. -/

namespace Sys2Proof.Machine

open Laws.OpcodeField (opcodeOf)

/-! ### What the rules of the two formats come down to (rules R81, R82, R118) -/

/-- The instructions `mk` makes have this opcode, and the fields of the Without Literal format as operands (rule R81). -/
def HasOperateFormat (op : BitVec 6) (mk : Reg → Reg → Reg → Instr) : Prop :=
  ∀ w, opcodeOf (mk (raField w) (rbField w) (rcField w)) = op ∧
    HasOperandsOf (mk (raField w) (rbField w) (rcField w)) w

/-- The instructions `mk` makes have this opcode, and the fields of the With Literal format as operands (rule R82). -/
def HasLiteralFormat (op : BitVec 6) (mk : Reg → Int → Reg → Instr) : Prop :=
  ∀ w, opcodeOf (mk (raField w) (litField w) (rcField w)) = op ∧
    HasOperandsOf (mk (raField w) (litField w) (rcField w)) w

section Rules
variable {optional : OptionalOpcode} {op : BitVec 6}

/-- A word of the Without Literal format is the instruction of its opcode and its three registers, whatever its unused
bits. -/
theorem decode_operateWord {mk : Reg → Reg → Reg → Instr} (hmk : HasOperateFormat op mk)
    (ra rb rc : Reg) (unused : BitVec 11) : decode (operateWord op rc ra rb unused) = .ok (mk ra rb rc) := by
  obtain ⟨hop, hargs⟩ := hmk (operateWord op rc ra rb unused)
  rw [raField_operateWord, rbField_operateWord, rcField_operateWord] at hop hargs
  exact (decode_ok_iff _ _).mpr ⟨by rw [hop, opcodeField_operateWord], hargs⟩

/-- A word of the With Literal format is the instruction of its opcode, its two registers and its literal. -/
theorem decode_literalWord {mk : Reg → Int → Reg → Instr} (hmk : HasLiteralFormat op mk)
    (ra rc : Reg) (lit : BitVec 16) : decode (literalWord op rc ra lit) = .ok (mk ra lit.toInt rc) := by
  obtain ⟨hop, hargs⟩ := hmk (literalWord op rc ra lit)
  rw [raField_literalWord, litField_literalWord, rcField_literalWord] at hop hargs
  exact (decode_ok_iff _ _).mpr ⟨by rw [hop, opcodeField_literalWord], hargs⟩

/-- The rule of an Operate instruction, from its format, its meaning and the value of its function. -/
theorem operateRule_of {mk : Reg → Reg → Reg → Instr} {result : Platform → Word → Word → Word → Prop}
    (f : Platform → Word → Word → Word) (hmk : HasOperateFormat op mk)
    (hexec : ∀ ra rb rc s, exec (mk ra rb rc) s = operate (f s.platform) ra rb rc s)
    (hresult : ∀ p a b, result p a b (f p a b)) : OperateRule op mk result := by
  intro ra rb rc unused s
  obtain ⟨t, ht, hwrites⟩ := operate_writesOnly (f s.platform) ra rb rc s
  exact ⟨decode_operateWord hmk ra rb rc unused, t, _, (hexec ra rb rc s).trans ht, hresult _ _ _, hwrites⟩

/-- The rule of an OPC instruction, from its format, its meaning and the value of its function. -/
theorem literalRule_of {mk : Reg → Int → Reg → Instr} {result : Platform → Word → BitVec 16 → Word → Prop}
    (f : Platform → Word → Word → Word) (hmk : HasLiteralFormat op mk)
    (hexec : ∀ ra lit rc s, exec (mk ra lit rc) s = operateLiteral (f s.platform) ra lit rc s)
    (hresult : ∀ p a (lit : BitVec 16), result p a lit (f p a (sext32 lit.toInt))) : LiteralRule op mk result := by
  intro ra rc lit s
  obtain ⟨t, ht, hwrites⟩ := operateLiteral_writesOnly (f s.platform) ra lit.toInt rc s
  exact ⟨decode_literalWord hmk ra rc lit, t, _, (hexec ra lit.toInt rc s).trans ht, hresult _ _ _, hwrites⟩

/-- The rule of an optional Operate instruction: that of an Operate instruction, or an illegal instruction (rule R233). -/
theorem optionalOperateRule_of {mk : Reg → Reg → Reg → Instr} {result : Platform → Word → Word → Word → Prop}
    (f : Platform → Word → Word → Word) (hmk : HasOperateFormat op mk)
    (hexec : ∀ ra rb rc s, exec (mk ra rb rc) s = ifProvided optional s (operate (f s.platform) ra rb rc s))
    (hresult : ∀ p a b, result p a b (f p a b)) : OptionalOperateRule optional op mk result := by
  intro ra rb rc unused s
  refine ⟨decode_operateWord hmk ra rb rc unused, fun hprovided => ?_, fun homitted => ?_⟩
  · obtain ⟨t, ht, hwrites⟩ := operate_writesOnly (f s.platform) ra rb rc s
    exact ⟨t, _, by rw [hexec, ifProvided_true hprovided, ht], hresult _ _ _, hwrites⟩
  · rw [hexec, ifProvided_false homitted]
    exact raiseIllegalInstruction_raises s

/-- The rule of an optional OPC instruction: that of an OPC instruction, or an illegal instruction (rule R233). -/
theorem optionalLiteralRule_of {mk : Reg → Int → Reg → Instr} {result : Platform → Word → BitVec 16 → Word → Prop}
    (f : Platform → Word → Word → Word) (hmk : HasLiteralFormat op mk)
    (hexec : ∀ ra lit rc s, exec (mk ra lit rc) s = ifProvided optional s (operateLiteral (f s.platform) ra lit rc s))
    (hresult : ∀ p a (lit : BitVec 16), result p a lit (f p a (sext32 lit.toInt))) :
    OptionalLiteralRule optional op mk result := by
  intro ra rc lit s
  refine ⟨decode_literalWord hmk ra rc lit, fun hprovided => ?_, fun homitted => ?_⟩
  · obtain ⟨t, ht, hwrites⟩ := operateLiteral_writesOnly (f s.platform) ra lit.toInt rc s
    exact ⟨t, _, by rw [hexec, ifProvided_true hprovided, ht], hresult _ _ _, hwrites⟩
  · rw [hexec, ifProvided_false homitted]
    exact raiseIllegalInstruction_raises s

end Rules

/-! ### Arithmetic on integers modulo 2^32 (rule R11) -/

theorem ofInt_toNat_emod (x : Int) : ((BitVec.ofInt 32 x).toNat : Int) = x % 2 ^ 32 := by
  rw [BitVec.toNat_ofInt]
  omega

theorem add_sext32_toNat (a : Word) (lit : Int) : ((a + sext32 lit).toNat : Int) = (a.toNat + lit) % 2 ^ 32 := by
  rw [← ofInt_toNat_emod, BitVec.ofInt_add, BitVec.ofInt_natCast, BitVec.ofNat_toNat, BitVec.setWidth_eq, sext32]

theorem sub_toNat (a b : Word) : ((a - b).toNat : Int) = ((a.toNat : Int) - b.toNat) % 2 ^ 32 := by
  rw [BitVec.toNat_sub]
  omega

theorem sub_sext32_toNat (a : Word) (lit : Int) : ((a - sext32 lit).toNat : Int) = (a.toNat - lit) % 2 ^ 32 := by
  rw [sub_toNat, sext32, ofInt_toNat_emod, Int.sub_emod_emod]

theorem mul_sext32_toNat (a : Word) (lit : Int) : ((a * sext32 lit).toNat : Int) = a.toNat * lit % 2 ^ 32 := by
  rw [← ofInt_toNat_emod, BitVec.ofInt_mul, BitVec.ofInt_natCast, BitVec.ofNat_toNat, BitVec.setWidth_eq, sext32]

/-- Settles O13: each instruction computes with bit vectors what its rule says of integers modulo 2^32. -/
theorem addAndSubtractInstructions : Obligations.AddAndSubtractInstructions := by
  refine ⟨?add, ?addc, ?sub, ?subc⟩
  case add =>
    exact operateRule_of (fun _ => (· + ·)) (fun _ => ⟨rfl, rfl, rfl, rfl⟩) (fun _ _ _ _ => rfl)
      fun _ => BitVec.toNat_add
  case addc =>
    exact literalRule_of (fun _ => (· + ·)) (fun _ => ⟨rfl, rfl, rfl, rfl⟩) (fun _ _ _ _ => rfl)
      fun _ a lit => add_sext32_toNat a lit.toInt
  case sub =>
    exact operateRule_of (fun _ => (· - ·)) (fun _ => ⟨rfl, rfl, rfl, rfl⟩) (fun _ _ _ _ => rfl) fun _ => sub_toNat
  case subc =>
    exact literalRule_of (fun _ => (· - ·)) (fun _ => ⟨rfl, rfl, rfl, rfl⟩) (fun _ _ _ _ => rfl)
      fun _ a lit => sub_sext32_toNat a lit.toInt

/-- Settles O14: where provided, the low 32 bits of the product are those of the product of the bit vectors. -/
theorem multiplyInstructions : Obligations.MultiplyInstructions := by
  refine ⟨?mul, ?mulc⟩
  case mul =>
    exact optionalOperateRule_of (fun _ => (· * ·)) (fun _ => ⟨rfl, rfl, rfl, rfl⟩) (fun _ _ _ _ => rfl)
      fun _ => BitVec.toNat_mul
  case mulc =>
    exact optionalLiteralRule_of (fun _ => (· * ·)) (fun _ => ⟨rfl, rfl, rfl, rfl⟩) (fun _ _ _ _ => rfl)
      fun _ a lit => mul_sext32_toNat a lit.toInt

/-! ### The readings of division (rule R119) -/

/-- By a negative divisor the flooring remainder is not positive, and above the divisor. -/
theorem fmod_bounds_of_neg (a : Int) {b : Int} (hb : b < 0) : b < a.fmod b ∧ a.fmod b ≤ 0 := by
  have hneg : 0 < -b := by omega
  have hnonneg : 0 ≤ (-a).fmod (-b) := Int.fmod_nonneg_of_pos _ hneg
  have hlt : (-a).fmod (-b) < -b := Int.fmod_lt_of_pos _ hneg
  rw [Int.neg_fmod_neg] at hnonneg hlt
  omega

/-- A word divided as an unsigned number fits a word. -/
theorem ofNat_div_toNat (a b : Word) : (BitVec.ofNat 32 (a.toNat / b.toNat)).toNat = a.toNat / b.toNat := by
  have hlt : a.toNat / b.toNat < 2 ^ 32 := (Nat.div_le_self ..).trans_lt a.isLt
  exact (BitVec.toNat_ofNat ..).trans (Nat.mod_eq_of_lt hlt)

/-- The quotient in each reading is the one its remainder determines: of the dividend's sign where it truncates, of the
divisor's where it floors. -/
theorem quotient_isQuotient (reading : DivReading) (a : Word) {b : Word} (h : b ≠ 0#32) :
    IsQuotient reading a b (quotient reading a b) := by
  have hb : b.toInt ≠ 0 := BitVec.toInt_ne.mpr h
  cases reading with
  | signedTruncating =>
    refine ⟨_, a.toInt.tmod b.toInt, (Int.tdiv_mul_add_tmod ..).symm, ?_, fun ha => Int.tmod_nonneg _ ha, ?_, rfl⟩
    · rw [Int.natAbs_tmod]
      exact Nat.mod_lt _ (Int.natAbs_pos.mpr hb)
    · intro ha
      have hneg : 0 ≤ (-a.toInt).tmod b.toInt := Int.tmod_nonneg _ (by omega)
      rw [Int.neg_tmod] at hneg
      omega
  | signedFlooring =>
    refine ⟨_, a.toInt.fmod b.toInt, (Int.fdiv_mul_add_fmod ..).symm, ?_, ?_, ?_, rfl⟩
    · rcases Int.lt_or_gt_of_ne hb with hneg | hpos
      · have hbounds := fmod_bounds_of_neg a.toInt hneg
        omega
      · have hnonneg := Int.fmod_nonneg_of_pos a.toInt hpos
        have hlt := Int.fmod_lt_of_pos a.toInt hpos
        omega
    · exact fun hpos => Int.fmod_nonneg_of_pos _ hpos
    · exact fun hneg => (fmod_bounds_of_neg _ hneg).2
  | unsigned => exact ofNat_div_toNat a b
  | uninterpreted => rfl

/-- Settles O18: words with bit 31 clear stand for the same number in both readings of a word, and dividing one natural
number by another truncates, floors and is unsigned all at once. -/
theorem divisionReadingsAgreeOnNonnegative : Obligations.DivisionReadingsAgreeOnNonnegative := by
  intro a b ha hb _ reading hreading
  have haInt : a.toInt = a.toNat := BitVec.toInt_eq_toNat_of_msb ha
  have hbInt : b.toInt = b.toNat := BitVec.toInt_eq_toNat_of_msb hb
  cases reading with
  | signedTruncating => rw [quotient, haInt, hbInt, ← Int.ofNat_tdiv, BitVec.ofInt_natCast, ofNat_div_toNat]
  | signedFlooring => rw [quotient, haInt, hbInt, ← Int.ofNat_fdiv, BitVec.ofInt_natCast, ofNat_div_toNat]
  | unsigned => exact ofNat_div_toNat a b
  | uninterpreted => exact absurd rfl hreading

/-! ### DIV and DIVC (rules R116, R117, R119) -/

theorem exec_div_provided {s : State} (h : s.platform.implOptional.contains .div = true) (ra rb rc : Reg) :
    exec (.div ra rb rc) s = writeQuotient (divide s.platform (s.reg ra) (s.reg rb)) rc s :=
  ifProvided_true h _

theorem exec_divc_provided {s : State} (h : s.platform.implOptional.contains .divc = true) (ra : Reg) (lit : Int)
    (rc : Reg) : exec (.divc ra lit rc) s = writeQuotient (divide s.platform (s.reg ra) (sext32 lit)) rc s :=
  ifProvided_true h _

/-- A quotient by a divisor that is not zero is written, and nothing else but the PC (rule R119). -/
theorem writeQuotient_divide_nonzero (rc : Reg) (s : State) (a : Word) {b : Word} (h : b ≠ 0#32) :
    ∃ t v, writeQuotient (divide s.platform a b) rc s = .next t ∧ IsQuotient s.platform.divReading a b v ∧
      WritesOnly s t rc v (nextPc s.pc) := by
  obtain ⟨t, ht, hwrites⟩ := writeQuotient_writesOnly (divide_nonzero s.platform a h) rc s
  exact ⟨t, _, ht, quotient_isQuotient _ a h, hwrites⟩

theorem signExtend_ne_zero {lit : BitVec 16} (h : lit ≠ 0#16) : lit.signExtend 32 ≠ 0#32 := by
  rw [← BitVec.toInt_ne, BitVec.toInt_signExtend_of_le (by decide)]
  exact BitVec.toInt_ne.mpr h

/-- Settles O15: provided, each of the two writes the quotient by a divisor that is not zero. -/
theorem divideInstructions : Obligations.DivideInstructions := by
  refine ⟨?div, ?divc⟩
  case div =>
    intro ra rb rc unused s
    refine ⟨decode_operateWord (mk := .div) (fun _ => ⟨rfl, rfl, rfl, rfl⟩) ra rb rc unused, ?_⟩
    intro hprovided hnonzero
    rw [exec_div_provided hprovided]
    exact writeQuotient_divide_nonzero rc s _ hnonzero
  case divc =>
    intro ra rc lit s
    refine ⟨decode_literalWord (mk := .divc) (fun _ => ⟨rfl, rfl, rfl, rfl⟩) ra rc lit, ?_⟩
    intro hprovided hnonzero
    rw [exec_divc_provided hprovided, sext32_toInt]
    exact writeQuotient_divide_nonzero rc s _ (signExtend_ne_zero hnonzero)

/-! ### Division by zero (rules R7, R119), and where the opcodes are omitted (rules R9, R233) -/

theorem divide_zero_freeQuotient {p : Platform} (h : p.divByZero = .freeQuotient) (a : Word) :
    divide p a 0#32 = .ok (Config.quotientByZero a) := by
  rw [divide, if_pos rfl, h]

theorem divide_zero_refuse {p : Platform} (h : p.divByZero = .refuse) (a : Word) :
    divide p a 0#32 = .error .divisionByZero := by
  rw [divide, if_pos rfl, h]

/-- What division by zero leads to, by the value of `DIV_BY_ZERO`: a free quotient is written, or there is no meaning. -/
theorem writeQuotient_divide_zero (rc : Reg) (s : State) (a : Word) :
    (s.platform.divByZero = .freeQuotient → ∃ t, writeQuotient (divide s.platform a 0#32) rc s = .next t ∧
      WritesOnly s t rc (Config.quotientByZero a) (nextPc s.pc)) ∧
    (s.platform.divByZero = .refuse → writeQuotient (divide s.platform a 0#32) rc s = .refused .divisionByZero) := by
  constructor
  · intro hfree
    exact writeQuotient_writesOnly (divide_zero_freeQuotient hfree a) rc s
  · intro hrefuse
    rw [divide_zero_refuse hrefuse, writeQuotient]

/-- Settles O16: provided, each of the two writes what `divide` answers for the divisor zero, or is refused with it. -/
theorem divideByZeroWritesFreeQuotientOrRefuses : Obligations.DivideByZeroWritesFreeQuotientOrRefuses := by
  refine ⟨fun ra rb rc s hprovided hzero => ?_, fun ra rc s hprovided => ?_⟩
  · rw [exec_div_provided hprovided, hzero]
    exact writeQuotient_divide_zero rc s _
  · rw [exec_divc_provided hprovided]
    exact writeQuotient_divide_zero rc s _

/-- Settles O17: an instruction the platform does not provide raises the illegal instruction exception. -/
theorem omittedDivideIsIllegal : Obligations.OmittedDivideIsIllegal := by
  refine ⟨fun ra rb rc s homitted => ?_, fun ra rc lit s homitted => ?_⟩
  · rw [exec_not_provided (i := .div ra rb rc) homitted]
    exact raiseIllegalInstruction_raises s
  · rw [exec_not_provided (i := .divc ra lit rc) homitted]
    exact raiseIllegalInstruction_raises s

end Sys2Proof.Machine
end

section
/-! PROOFS. The statement of bitwise logic (rules R130 to R138): each function of two words works bit by bit, and with a
literal it does so on the literal's sign extension. -/

namespace Sys2Proof.Machine

/-! ### The functions of two words, bit by bit (rule R138) -/

theorem bitByBit_and (a b : Word) : BitByBit (fun x y => x && y) a b (a &&& b) :=
  fun _ _ => BitVec.getLsbD_and

theorem bitByBit_or (a b : Word) : BitByBit (fun x y => x || y) a b (a ||| b) :=
  fun _ _ => BitVec.getLsbD_or

theorem bitByBit_xor (a b : Word) : BitByBit (fun x y => x ^^ y) a b (a ^^^ b) :=
  fun _ _ => BitVec.getLsbD_xor

theorem bitByBit_xnor (a b : Word) : BitByBit (fun x y => !(x ^^ y)) a b (xnorWord a b) := by
  intro i hi
  rw [xnorWord, BitVec.getLsbD_not, BitVec.getLsbD_xor, decide_eq_true hi, Bool.true_and]

/-! ### The bits of a literal (rules R11, R88) -/

/-- Bit 15 of a literal stands for every bit above it. -/
theorem getLsbD_sext32_toInt (lit : BitVec 16) {i : Nat} (hi : i < 32) :
    (sext32 lit.toInt).getLsbD i = lit.getLsbD (min i 15) := by
  rw [sext32_toInt, BitVec.getLsbD_signExtend, decide_eq_true hi, Bool.true_and]
  split
  case isTrue hlow => rw [Nat.min_eq_left (by omega)]
  case isFalse hhigh => rw [Nat.min_eq_right (by omega), BitVec.msb_eq_getLsbD_last]

/-- What holds bit by bit of the sign extension holds bit by bit of the literal. -/
theorem bitByBitLiteral_of_sext32 {f : Bool → Bool → Bool} {a v : Word} {lit : BitVec 16}
    (h : BitByBit f a (sext32 lit.toInt) v) : BitByBitLiteral f a lit v := by
  intro i hi
  rw [h i hi, getLsbD_sext32_toInt lit hi]

/-- Settles O19: each function works bit by bit on two words, and so it does where the second is a sign-extended literal. -/
theorem bitwiseInstructions : Obligations.BitwiseInstructions := by
  refine ⟨?and, ?andc, ?or, ?orc, ?xor, ?xorc, ?xnor, ?xnorc⟩
  case and =>
    exact operateRule_of (fun _ => (· &&& ·)) (fun _ => ⟨rfl, rfl, rfl, rfl⟩) (fun _ _ _ _ => rfl) fun _ => bitByBit_and
  case andc =>
    exact literalRule_of (fun _ => (· &&& ·)) (fun _ => ⟨rfl, rfl, rfl, rfl⟩) (fun _ _ _ _ => rfl)
      fun _ _ _ => bitByBitLiteral_of_sext32 (bitByBit_and _ _)
  case or =>
    exact operateRule_of (fun _ => (· ||| ·)) (fun _ => ⟨rfl, rfl, rfl, rfl⟩) (fun _ _ _ _ => rfl) fun _ => bitByBit_or
  case orc =>
    exact literalRule_of (fun _ => (· ||| ·)) (fun _ => ⟨rfl, rfl, rfl, rfl⟩) (fun _ _ _ _ => rfl)
      fun _ _ _ => bitByBitLiteral_of_sext32 (bitByBit_or _ _)
  case xor =>
    exact operateRule_of (fun _ => (· ^^^ ·)) (fun _ => ⟨rfl, rfl, rfl, rfl⟩) (fun _ _ _ _ => rfl) fun _ => bitByBit_xor
  case xorc =>
    exact literalRule_of (fun _ => (· ^^^ ·)) (fun _ => ⟨rfl, rfl, rfl, rfl⟩) (fun _ _ _ _ => rfl)
      fun _ _ _ => bitByBitLiteral_of_sext32 (bitByBit_xor _ _)
  case xnor =>
    exact operateRule_of (fun _ => xnorWord) (fun _ => ⟨rfl, rfl, rfl, rfl⟩) (fun _ _ _ _ => rfl) fun _ => bitByBit_xnor
  case xnorc =>
    exact literalRule_of (fun _ => xnorWord) (fun _ => ⟨rfl, rfl, rfl, rfl⟩) (fun _ _ _ _ => rfl)
      fun _ _ _ => bitByBitLiteral_of_sext32 (bitByBit_xnor _ _)

end Sys2Proof.Machine
end

section
/-! PROOFS. The statements of the compare instructions (rules R150 to R157): equality of all 32 bits, the signed and the
unsigned order, and where the two orders agree. -/

namespace Sys2Proof.Machine

/-! ### The result word and the relations (rules R150 to R157) -/

/-- A result word is the truth of whatever its Boolean decides (rule R157). -/
theorem isTruthOf_truthWord {holds : Prop} {b : Bool} (h : b = true ↔ holds) : IsTruthOf holds (truthWord b) := by
  rw [← h]
  cases b with
  | true => exact ⟨fun _ => rfl, fun hfalse => absurd rfl hfalse⟩
  | false => exact ⟨fun htrue => absurd htrue Bool.false_ne_true, fun _ => rfl⟩

theorem equalWords_iff (a b : Word) : equalWords a b = true ↔ a = b := beq_iff_eq

theorem lessThan_iff (signed : Bool) (a b : Word) :
    lessThan signed a b = true ↔ if signed then a.toInt < b.toInt else a.toNat < b.toNat := by
  cases signed with
  | true => exact decide_eq_true_iff
  | false => exact decide_eq_true_iff

theorem lessOrEqual_iff (signed : Bool) (a b : Word) :
    lessOrEqual signed a b = true ↔ if signed then a.toInt ≤ b.toInt else a.toNat ≤ b.toNat := by
  cases signed with
  | true => exact decide_eq_true_iff
  | false => exact decide_eq_true_iff

/-! ### Comparison with a literal (rules R11, R153, R155) -/

/-- Sign extension keeps the number a literal stands for, so the literal forms may compare with the literal itself. -/
theorem toInt_signExtend_literal (lit : BitVec 16) : (lit.signExtend 32).toInt = lit.toInt :=
  BitVec.toInt_signExtend_of_le (by decide)

theorem lessThan_sext32_iff (signed : Bool) (a : Word) (lit : BitVec 16) :
    lessThan signed a (sext32 lit.toInt) = true ↔
      if signed then a.toInt < lit.toInt else a.toNat < (lit.signExtend 32).toNat := by
  rw [lessThan_iff, sext32_toInt, toInt_signExtend_literal]

theorem lessOrEqual_sext32_iff (signed : Bool) (a : Word) (lit : BitVec 16) :
    lessOrEqual signed a (sext32 lit.toInt) = true ↔
      if signed then a.toInt ≤ lit.toInt else a.toNat ≤ (lit.signExtend 32).toNat := by
  rw [lessOrEqual_iff, sext32_toInt, toInt_signExtend_literal]

/-! ### The instructions (rules R150 to R155) -/

/-- Settles O20: the word written is the truth of equality, with the second register or with the sign-extended literal. -/
theorem equalityInstructions : Obligations.EqualityInstructions := by
  refine ⟨?cmpeq, ?cmpeqc⟩
  case cmpeq =>
    exact operateRule_of (fun _ a b => truthWord (equalWords a b)) (fun _ => ⟨rfl, rfl, rfl, rfl⟩) (fun _ _ _ _ => rfl)
      fun _ a b => isTruthOf_truthWord (equalWords_iff a b)
  case cmpeqc =>
    exact literalRule_of (fun _ a b => truthWord (equalWords a b)) (fun _ => ⟨rfl, rfl, rfl, rfl⟩) (fun _ _ _ _ => rfl)
      fun _ a lit => isTruthOf_truthWord (equalWords_iff a (lit.signExtend 32))

/-- Settles O21: the word written is the truth of the order the platform's `CMP_SIGNED` names, with the second register or
with the literal, whose number sign extension keeps. -/
theorem orderInstructions : Obligations.OrderInstructions := by
  refine ⟨?cmplt, ?cmpltc, ?cmple, ?cmplec⟩
  case cmplt =>
    exact operateRule_of (fun p a b => truthWord (lessThan p.cmpSigned a b)) (fun _ => ⟨rfl, rfl, rfl, rfl⟩)
      (fun _ _ _ _ => rfl) fun p a b => isTruthOf_truthWord (lessThan_iff p.cmpSigned a b)
  case cmpltc =>
    exact literalRule_of (fun p a b => truthWord (lessThan p.cmpSigned a b)) (fun _ => ⟨rfl, rfl, rfl, rfl⟩)
      (fun _ _ _ _ => rfl) fun p a lit => isTruthOf_truthWord (lessThan_sext32_iff p.cmpSigned a lit)
  case cmple =>
    exact operateRule_of (fun p a b => truthWord (lessOrEqual p.cmpSigned a b)) (fun _ => ⟨rfl, rfl, rfl, rfl⟩)
      (fun _ _ _ _ => rfl) fun p a b => isTruthOf_truthWord (lessOrEqual_iff p.cmpSigned a b)
  case cmplec =>
    exact literalRule_of (fun p a b => truthWord (lessOrEqual p.cmpSigned a b)) (fun _ => ⟨rfl, rfl, rfl, rfl⟩)
      (fun _ _ _ _ => rfl) fun p a lit => isTruthOf_truthWord (lessOrEqual_sext32_iff p.cmpSigned a lit)

/-! ### Signed and unsigned order (rule R156) -/

/-- Where bits 31 are equal, both readings give two words the same difference: the signed numbers are the unsigned ones, or
both are 2^32 below them. -/
theorem toInt_sub_toInt_of_top_bits_eq {a b : Word} (h : a.getLsbD 31 = b.getLsbD 31) :
    a.toInt - b.toInt = a.toNat - b.toNat := by
  have hmsb : a.msb = b.msb := by rw [BitVec.msb_eq_getLsbD_last, BitVec.msb_eq_getLsbD_last, h]
  rw [BitVec.toInt_eq_msb_cond, BitVec.toInt_eq_msb_cond, hmsb]
  split
  case isTrue => exact sub_sub_sub_cancel_right _ _ _
  case isFalse => rfl

/-- Settles O22: either order is read off the sign of the difference, which is the same signed and unsigned. -/
theorem signedAndUnsignedOrderAgreeOnEqualTopBits : Obligations.SignedAndUnsignedOrderAgreeOnEqualTopBits := by
  intro a b htop
  have hdiff := toInt_sub_toInt_of_top_bits_eq htop
  have hlt : a.toInt < b.toInt ↔ a.toNat < b.toNat := by omega
  have hle : a.toInt ≤ b.toInt ↔ a.toNat ≤ b.toNat := by omega
  exact ⟨decide_eq_decide.mpr hlt, decide_eq_decide.mpr hle⟩

end Sys2Proof.Machine
end

section
/-! PROOFS. The statement of the shift instructions (rules R170 to R176): the count, and each shift as arithmetic. -/

namespace Sys2Proof.Machine

/-! ### The shift count (rule R176) -/

theorem shiftCount_eq (b : Word) : shiftCount b = b.toNat % 32 := by
  rw [shiftCount, BitVec.extractLsb'_toNat, Nat.shiftRight_zero]

/-- Sign extension leaves bits 4:0 of a literal alone: it moves the number by a multiple of 2^16. -/
theorem shiftCount_sext32 (lit : BitVec 16) : shiftCount (sext32 lit.toInt) = lit.toNat % 32 := by
  have hnumber : ((sext32 lit.toInt).toNat : Int) = lit.toInt % 2 ^ 32 := ofInt_toNat_emod lit.toInt
  have hlit : lit.toInt % 2 ^ 16 = lit.toNat := by
    rw [BitVec.toInt_eq_toNat_cond]
    omega
  rw [shiftCount_eq]
  omega

/-! ### The shifts as arithmetic (rules R11, R170, R172, R174) -/

theorem shiftLeft_toNat {n : Nat} (a b : Word) (hcount : shiftCount b = n) :
    (shiftLeft a b).toNat = a.toNat * 2 ^ n % 2 ^ 32 := by
  rw [shiftLeft, hcount, BitVec.toNat_shiftLeft, Nat.shiftLeft_eq]

theorem shiftRightLogical_toNat {n : Nat} (a b : Word) (hcount : shiftCount b = n) :
    (shiftRightLogical a b).toNat = a.toNat / 2 ^ n := by
  rw [shiftRightLogical, hcount, BitVec.toNat_ushiftRight, Nat.shiftRight_eq_div_pow]

/-- Sign fill rounds toward minus infinity. -/
theorem shiftRightArithmetic_toInt {n : Nat} (a b : Word) (hcount : shiftCount b = n) :
    (shiftRightArithmetic a b).toInt = a.toInt.fdiv (2 ^ n) := by
  rw [shiftRightArithmetic, hcount, BitVec.toInt_sshiftRight, Int.shiftRight_eq_div_pow, Nat.cast_pow, Nat.cast_ofNat,
    Int.fdiv_eq_ediv_of_nonneg _ (by positivity)]

/-! ### The instructions (rules R170 to R175) -/

/-- Settles O23: each shift is its arithmetic at the count, which bits 4:0 give in a register and in a sign-extended literal
alike. -/
theorem shiftInstructions : Obligations.ShiftInstructions := by
  refine ⟨?shl, ?shlc, ?shr, ?shrc, ?sra, ?srac⟩
  case shl =>
    exact operateRule_of (fun _ => shiftLeft) (fun _ => ⟨rfl, rfl, rfl, rfl⟩) (fun _ _ _ _ => rfl)
      fun _ a b => shiftLeft_toNat a b (shiftCount_eq b)
  case shlc =>
    exact literalRule_of (fun _ => shiftLeft) (fun _ => ⟨rfl, rfl, rfl, rfl⟩) (fun _ _ _ _ => rfl)
      fun _ a lit => shiftLeft_toNat a _ (shiftCount_sext32 lit)
  case shr =>
    exact operateRule_of (fun _ => shiftRightLogical) (fun _ => ⟨rfl, rfl, rfl, rfl⟩) (fun _ _ _ _ => rfl)
      fun _ a b => shiftRightLogical_toNat a b (shiftCount_eq b)
  case shrc =>
    exact literalRule_of (fun _ => shiftRightLogical) (fun _ => ⟨rfl, rfl, rfl, rfl⟩) (fun _ _ _ _ => rfl)
      fun _ a lit => shiftRightLogical_toNat a _ (shiftCount_sext32 lit)
  case sra =>
    exact operateRule_of (fun _ => shiftRightArithmetic) (fun _ => ⟨rfl, rfl, rfl, rfl⟩) (fun _ _ _ _ => rfl)
      fun _ a b => shiftRightArithmetic_toInt a b (shiftCount_eq b)
  case srac =>
    exact literalRule_of (fun _ => shiftRightArithmetic) (fun _ => ⟨rfl, rfl, rfl, rfl⟩) (fun _ _ _ _ => rfl)
      fun _ a lit => shiftRightArithmetic_toInt a _ (shiftCount_sext32 lit)

end Sys2Proof.Machine
end

section
/-! PROOFS. The statements of loads and stores (rules R190 to R195): the address of each access, the word it moves, and what
it leaves unchanged. -/

namespace Sys2Proof.Machine

/-! ### The word a load reads (rules R52, R54) -/

/-- The word of four bytes holds each of them where the byte order places it. -/
theorem byteOfWord_wordOfBytes (o : ByteOrder) (b : Nat → Byte) {k : Nat} (hk : k < 4) :
    byteOfWord o (wordOfBytes o (b 0) (b 1) (b 2) (b 3)) k = b k := by
  refine BitVec.eq_of_getLsbD_eq fun i hi => ?_
  match k, hk with
  | 0, _ | 1, _ | 2, _ | 3, _ => cases o <;> grind [byteOfWord, wordOfBytes]

theorem holdsWord_readWord (s : State) (a : Word) : HoldsWord s a (s.readWord a) :=
  fun _ hk => byteOfWord_wordOfBytes s.platform.byteOrder (fun j => readByte s.mem (a.toNat + j)) hk

/-- A load from an address it may access, the word it reads given by its bytes. -/
theorem loadFrom_holdsWord {address : Except Refusal Word} {a : Word} (h : address = .ok a) (rc : Reg) (s : State) :
    ∃ t v, loadFrom address rc s = .next t ∧ HoldsWord s a v ∧ WritesOnly s t rc v (nextPc s.pc) := by
  obtain ⟨t, ht, hwrites⟩ := loadFrom_writesOnly h rc s
  exact ⟨t, _, ht, holdsWord_readWord s a, hwrites⟩

/-! ### The addresses (rules R57, R68, R194) -/

theorem effectiveAddress_toNat (base : Word) (lit : Int) :
    ((effectiveAddress base lit).toNat : Int) = (base.toNat + lit) % 2 ^ 32 :=
  add_sext32_toNat base lit

/-- A misaligned effective address is accessed with its low two bits masked where the platform says so. -/
theorem dataAddress_masked {p : Platform} {ea : Word} (hmis : ¬ isAligned ea = true)
    (hp : p.misalignedData = .maskLowTwoBits) (hregion : wordInRegion p (alignWord ea) = true) :
    dataAddress p ea = .ok (alignWord ea) := by
  rw [dataAddress, if_neg hmis, hp]
  exact if_pos hregion

/-- The address that `Accesses` describes by its number is the one LD and ST use. -/
theorem dataAddress_of_accesses {p : Platform} {ea a : Word} (h : Accesses p ea a) : dataAddress p ea = .ok a := by
  obtain ⟨hregion, ⟨haligned, rfl⟩ | ⟨hmis, hp, ha⟩⟩ := h
  · exact dataAddress_aligned ((isAligned_iff _).mpr haligned) hregion
  · obtain rfl : a = alignWord ea := BitVec.eq_of_toNat_eq (by rw [ha, alignWord_toNat])
    exact dataAddress_masked (mt (isAligned_iff _).mp hmis) hp hregion

/-- Where the PC is a multiple of 4, so is the address of LDR, in both modes (rules R24, R191). -/
theorem ldrAddress_nextPc_aligned {p : Word} (h : p.toNat % 4 = 0) (lit : Int) :
    isAligned (ldrAddress (nextPc p) lit) = true :=
  ldrAddress_aligned (nextPc_aligned ((isAligned_iff p).mpr h)) lit

/-! ### The instructions (rules R190 to R192) -/

/-- An LDR word is its literal and its Rc, whatever its Ra field (rule R191). -/
theorem decode_ldr (ra rc : Reg) (lit : BitVec 16) :
    decode (literalWord 0b011111#6 rc ra lit) = .ok (.ldr lit.toInt rc) :=
  (decode_ok_iff _ _).mpr
    ⟨opcodeField_literalWord .., (litField_literalWord ..).symm, (rcField_literalWord ..).symm⟩

/-- Settles O24: LD loads from the address `dataAddress` answers, which is the one it accesses. -/
theorem loadInstruction : Obligations.LoadInstruction := by
  intro ra rc lit s a
  refine ⟨decode_literalWord (mk := .ld) (fun _ => ⟨rfl, rfl, rfl, rfl⟩) ra rc lit, effectiveAddress_toNat _ _, ?_⟩
  intro haccess
  exact loadFrom_holdsWord (dataAddress_of_accesses haccess) rc s

/-- Settles O25: the address is a multiple of 4 where the PC is, so it is accessed as it stands. -/
theorem loadRelativeInstruction : Obligations.LoadRelativeInstruction := by
  intro ra rc lit s
  refine ⟨decode_ldr ra rc lit, ldrAddress_toNat _ _, ?_⟩
  intro hpc hregion
  exact loadFrom_holdsWord (dataAddress_aligned (ldrAddress_nextPc_aligned hpc _) hregion) rc s

/-- Settles O26: ST stores at the address `dataAddress` answers; inside `MEM_REGION` all four bytes lie in the address
space. -/
theorem storeInstruction : Obligations.StoreInstruction := by
  intro ra rc lit s a
  refine ⟨decode_literalWord (mk := fun ra lit rc => .st rc lit ra) (fun _ => ⟨rfl, rfl, rfl, rfl⟩) ra rc lit,
    effectiveAddress_toNat _ _, ?_⟩
  intro hmem haccess
  have haddress := dataAddress_of_accesses haccess
  obtain ⟨-, hregion⟩ := dataAddress_ok haddress
  exact storeTo_storesOnly haddress (s.reg rc) s (wordInRegion_lt _ _ hregion) hmem

end Sys2Proof.Machine
end

section
/-! PROOFS. The statements of control transfer (rules R210 to R213): the test of a branch, the target of a jump, and the link
both write. -/

namespace Sys2Proof.Machine

/-! ### The branches (rules R210, R211, R213) -/

theorem isZero_iff (v : Word) : isZero v = true ↔ v = 0#32 := beq_iff_eq

theorem not_isZero_iff (v : Word) : (!isZero v) = true ↔ v ≠ 0#32 := by
  rw [Bool.not_eq_true', ← Bool.not_eq_true, ne_eq, isZero_iff]

/-- What a branch does: the link in both outcomes, the relative target where it is taken. -/
theorem branch_writesOnly {taken : Bool} {p : Prop} [Decidable p] (htaken : taken = true ↔ p) (lit : Int) (rc : Reg)
    (s : State) :
    ∃ t, branch taken lit rc s = .next t ∧
      WritesOnly s t rc (nextPc s.pc) (if p then relTarget (nextPc s.pc) lit else nextPc s.pc) := by
  rw [branch, if_congr htaken rfl rfl]
  exact linkAndGo_writesOnly rc _ s

/-- Settles O28: each of the two is a branch whose test, on the old value of Ra, is true just when its condition holds. -/
theorem branchInstructions : Obligations.BranchInstructions := by
  constructor
  case left =>
    intro ra rc lit s
    exact ⟨decode_literalWord (mk := .beq) (fun _ => ⟨rfl, rfl, rfl, rfl⟩) ra rc lit,
      branch_writesOnly (isZero_iff (s.reg ra)) lit.toInt rc s⟩
  case right =>
    intro ra rc lit s
    exact ⟨decode_literalWord (mk := .bne) (fun _ => ⟨rfl, rfl, rfl, rfl⟩) ra rc lit,
      branch_writesOnly (not_isZero_iff (s.reg ra)) lit.toInt rc s⟩

/-! ### The jump (rules R28, R212) -/

/-- A JMP word is its two registers, whatever its bits 15:0 (rule R91). -/
theorem decode_jmp (ra rc : Reg) (unused : BitVec 16) :
    decode (literalWord 0b011011#6 rc ra unused) = .ok (.jmp ra rc) :=
  (decode_ok_iff _ _).mpr
    ⟨opcodeField_literalWord .., (raField_literalWord ..).symm, (rcField_literalWord ..).symm⟩

/-- The target as a number: its Supervisor bit over its 31 address bits. -/
theorem jumpPc_toNat (p t : Word) :
    (jumpPc p t).toNat =
      (if p.getLsbD 31 = true ∧ 2 ^ 31 ≤ t.toNat then 2 ^ 31 else 0) + t.toNat % 2 ^ 31 / 4 * 4 := by
  have hlt := (jumpPc p t).isLt
  have haddress := jumpPc_address p t
  have hbit : 2 ^ 31 ≤ (jumpPc p t).toNat ↔ p.getLsbD 31 = true ∧ 2 ^ 31 ≤ t.toNat := by
    rw [← supervisor_iff, ← supervisor_iff, jumpPc_supervisor, Bool.and_eq_true]
  split
  case isTrue hkept =>
    have := hbit.mpr hkept
    omega
  case isFalse hcleared =>
    have := mt hbit.mp hcleared
    omega

/-- Settles O29: the link and the frame are those of every control transfer, the target is `jumpPc` of the PC and the old
value of Ra. -/
theorem jumpInstruction : Obligations.JumpInstruction := by
  intro ra rc unused s
  obtain ⟨t, ht, hwrites⟩ := linkAndGo_writesOnly rc (jumpPc s.pc (s.reg ra)) s
  have hpc := hwrites.pc
  exact ⟨decode_jmp ra rc unused, t, ht, hpc ▸ hwrites, hpc ▸ jumpPc_toNat s.pc (s.reg ra)⟩

end Sys2Proof.Machine
end

section
/-! PROOFS. The statements of privileged and illegal instructions (rules R230 to R234): the class of opcode 0x00, the
unassigned opcodes, and what the mode changes of the 34 instructions. -/

namespace Sys2Proof.Machine

/-! ### The privileged class (rules R89, R231) -/

theorem exec_privileged_user {s : State} (h : s.isSupervisor = false) (form : BitVec 26) :
    exec (.privileged form) s = raiseIllegalInstruction s :=
  if_neg (by rw [h]; exact Bool.false_ne_true)

theorem exec_privileged_supervisor {s : State} (h : s.isSupervisor = true) (form : BitVec 26) :
    exec (.privileged form) s = .refused .privilegedSemantics :=
  (if_pos h).trans (privilegedOutcome_eq s)

/-- Settles O30: the decoder reads opcode 0x00 and the form, and the meaning is that of the mode, whatever the form. -/
theorem privilegedClass : Obligations.PrivilegedClass := by
  intro form s
  refine ⟨?decoded, ?user, ?supervisor⟩
  case decoded =>
    exact (decode_ok_iff _ _).mpr ⟨opcodeField_privilegedWord form, (formField_privilegedWord form).symm⟩
  case user =>
    intro huser
    obtain ⟨hexception, -⟩ := raiseIllegalInstruction_raises s
    rw [exec_privileged_user huser]
    exact hexception huser
  case supervisor =>
    intro hsupervisor
    exact exec_privileged_supervisor hsupervisor form

/-! ### The unassigned opcodes (rules R90, R233) -/

/-- Settles O36: a word with an unassigned opcode is no instruction by O3, so the step raises the exception. -/
theorem unassignedOpcodeRaisesIllegalInstruction : Obligations.UnassignedOpcodeRaisesIllegalInstruction := by
  intro s hreset hint hregion hunassigned
  obtain ⟨hrejected, -⟩ := decodeRejectsExactlyUnassignedOpcodes (s.readWord (fetchAddress s.pc))
  rw [step_illegal hreset (interruptVector_none hint) hregion (hrejected hunassigned)]
  exact raiseIllegalInstruction_raises s.afterEnvironment

/-! ### The 31 address bits of a PC (rules R24, R26 to R28) -/

theorem nextPc_addressBits (p : Word) : (nextPc p).extractLsb' 0 31 = p.extractLsb' 0 31 + 4#31 :=
  BitVec.extractLsb'_append_eq_right

theorem relTarget_addressBits (p : Word) (lit : Int) :
    (relTarget p lit).extractLsb' 0 31 = p.extractLsb' 0 31 + BitVec.ofInt 31 (4 * lit) :=
  BitVec.extractLsb'_append_eq_right

/-- The address bits of a jump are those of its target register alone. -/
theorem jumpPc_addressBits (p q t : Word) : (jumpPc p t).extractLsb' 0 31 = (jumpPc q t).extractLsb' 0 31 := by
  apply BitVec.eq_of_toNat_eq
  rw [addressBits_toNat, addressBits_toNat, jumpPc_address, jumpPc_address]

/-! ### The same state in either mode: what an instruction reads and writes -/

theorem inMode_addressBits (s : State) (b : Bool) : (s.inMode b).pc.extractLsb' 0 31 = s.pc.extractLsb' 0 31 :=
  BitVec.extractLsb'_append_eq_right

theorem nextPc_inMode_addressBits (s : State) (b : Bool) :
    (nextPc (s.inMode b).pc).extractLsb' 0 31 = (nextPc s.pc).extractLsb' 0 31 := by
  rw [nextPc_addressBits, nextPc_addressBits, inMode_addressBits]

theorem relTarget_inMode_addressBits (s : State) (b : Bool) (lit : Int) :
    (relTarget (nextPc (s.inMode b).pc) lit).extractLsb' 0 31 = (relTarget (nextPc s.pc) lit).extractLsb' 0 31 := by
  rw [relTarget_addressBits, relTarget_addressBits, nextPc_inMode_addressBits]

/-- LDR accesses the same address in both modes (rule R191). -/
theorem ldrAddress_inMode (s : State) (b : Bool) (lit : Int) :
    ldrAddress (nextPc (s.inMode b).pc) lit = ldrAddress (nextPc s.pc) lit := by
  rw [ldrAddress, ldrAddress, nextPc_inMode_addressBits]

theorem setReg_inMode (s : State) (b : Bool) (r : Reg) (v : Word) :
    (s.inMode b).setReg r v = (s.setReg r v).inMode b := by
  unfold State.setReg
  split
  · rfl
  · rfl

/-! ### What the shared operations do in the two modes (rule R234) -/

section BothModes
variable {i : Instr}

/-- A state advanced in either mode, of an instruction that does not link: the PCs differ in the Supervisor bit. -/
theorem agree_advance (hlinks : links i = false) (s : State) :
    AgreeButForMode i (.next (s.inMode true).advance) (.next (s.inMode false).advance) := by
  refine .inr ⟨_, _, rfl, rfl, by simp, ⟨by simp, by simp, by simp, by simp⟩, ?pc, fun r => ⟨?link, ?other⟩⟩
  case pc => rw [advance_pc, advance_pc, nextPc_inMode_addressBits, nextPc_inMode_addressBits]
  case link =>
    rintro ⟨hlink, -⟩
    rw [hlinks] at hlink
    cases hlink
  case other =>
    intro _
    rw [advance_reg, advance_reg, inMode_reg, inMode_reg]

theorem agree_writeResult (hlinks : links i = false) (s : State) (rc : Reg) (v : Word) :
    AgreeButForMode i (.next ((s.inMode true).writeResult rc v)) (.next ((s.inMode false).writeResult rc v)) := by
  rw [State.writeResult, State.writeResult, setReg_inMode, setReg_inMode]
  exact agree_advance hlinks (s.setReg rc v)

theorem agree_writeQuotient (hlinks : links i = false) (s : State) (rc : Reg) (q : Except Refusal Word) :
    AgreeButForMode i (writeQuotient q rc (s.inMode true)) (writeQuotient q rc (s.inMode false)) := by
  cases q with
  | ok v => exact agree_writeResult hlinks s rc v
  | error r => exact .inl ⟨r, rfl, rfl⟩

theorem agree_loadFrom (hlinks : links i = false) (s : State) (rc : Reg) (address : Except Refusal Word) :
    AgreeButForMode i (loadFrom address rc (s.inMode true)) (loadFrom address rc (s.inMode false)) := by
  cases address with
  | ok a => exact agree_writeResult hlinks s rc (s.readWord a)
  | error r => exact .inl ⟨r, rfl, rfl⟩

theorem agree_storeTo (hlinks : links i = false) (s : State) (v : Word) (address : Except Refusal Word) :
    AgreeButForMode i (storeTo address v (s.inMode true)) (storeTo address v (s.inMode false)) := by
  cases address with
  | ok a => exact agree_advance hlinks (s.writeWord a v)
  | error r => exact .inl ⟨r, rfl, rfl⟩

/-- A provided optional opcode is its meaning in both modes. -/
theorem agree_ifProvided {op : OptionalOpcode} {s : State} {o o' : StepOutcome}
    (h : s.platform.implOptional.contains op = true) (hagree : AgreeButForMode i o o') :
    AgreeButForMode i (ifProvided op (s.inMode true) o) (ifProvided op (s.inMode false) o') := by
  rw [ifProvided_true (s := s.inMode true) h, ifProvided_true (s := s.inMode false) h]
  exact hagree

/-- A transfer with link to targets of the same address bits: the links are the updated PCs, which differ in the Supervisor
bit (rule R213). -/
theorem agree_linkAndGo (hlinks : links i = true) {rc : Reg} (hrc : destination? i = some rc) (s : State)
    {target target' : Word} (htarget : target.extractLsb' 0 31 = target'.extractLsb' 0 31) :
    AgreeButForMode i (linkAndGo rc target (s.inMode true)) (linkAndGo rc target' (s.inMode false)) := by
  refine .inr ⟨_, _, rfl, rfl, by simp, ⟨by simp, by simp, by simp, by simp⟩, htarget, fun r => ⟨?link, ?other⟩⟩
  case link =>
    rintro ⟨-, hr⟩
    obtain rfl : rc = r := Option.some.inj (hrc.symm.trans hr)
    rw [setPc_reg, setPc_reg, reg_setReg_self, reg_setReg_self]
    split
    · rfl
    · rw [nextPc_inMode_addressBits, nextPc_inMode_addressBits]
  case other =>
    intro hother
    have hne : r ≠ rc := fun hr => hother ⟨hlinks, hr ▸ hrc⟩
    rw [setPc_reg, setPc_reg, reg_setReg_other _ _ _ _ hne, reg_setReg_other _ _ _ _ hne, inMode_reg, inMode_reg]

/-- A branch goes to the same relative target, or on, in both modes. -/
theorem agree_branch (hlinks : links i = true) {rc : Reg} (hrc : destination? i = some rc) (s : State) (taken : Bool)
    (lit : Int) : AgreeButForMode i (branch taken lit rc (s.inMode true)) (branch taken lit rc (s.inMode false)) := by
  refine agree_linkAndGo hlinks hrc s ?_
  cases taken with
  | true => exact (relTarget_inMode_addressBits s true lit).trans (relTarget_inMode_addressBits s false lit).symm
  | false => exact (nextPc_inMode_addressBits s true).trans (nextPc_inMode_addressBits s false).symm

end BothModes

/-- Settles O31, instruction by instruction: what each computes reads registers, memory and address bits of the PC, which the
two modes share, and the shared operation it ends in agrees in both. -/
theorem instructionsDoTheSameInBothModes : Obligations.InstructionsDoTheSameInBothModes := by
  intro i s hnotPrivileged hprovided
  cases i with
  | privileged form => exact absurd rfl (hnotPrivileged form)
  | mul | mulc => exact agree_ifProvided (hprovided _ rfl) (agree_writeResult rfl s _ _)
  | div | divc => exact agree_ifProvided (hprovided _ rfl) (agree_writeQuotient rfl s _ _)
  | ld ra lit rc => exact agree_loadFrom rfl s rc (dataAddress s.platform (effectiveAddress (s.reg ra) lit))
  | ldr lit rc =>
    have hldr (b : Bool) : exec (.ldr lit rc) (s.inMode b) =
        loadFrom (dataAddress s.platform (ldrAddress (nextPc s.pc) lit)) rc (s.inMode b) := by
      rw [← ldrAddress_inMode s b lit]
      rfl
    rw [hldr, hldr]
    exact agree_loadFrom rfl s rc _
  | st rc lit ra => exact agree_storeTo rfl s (s.reg rc) (dataAddress s.platform (effectiveAddress (s.reg ra) lit))
  | beq ra lit rc => exact agree_branch rfl rfl s (isZero (s.reg ra)) lit
  | bne ra lit rc => exact agree_branch rfl rfl s (!isZero (s.reg ra)) lit
  | jmp ra rc => exact agree_linkAndGo rfl rfl s (jumpPc_addressBits _ _ (s.reg ra))
  | _ => exact agree_writeResult rfl s _ _

end Sys2Proof.Machine
end

section
/-! PROOFS. The statements of the macros and the software conventions (rules R240 to R262): what the macros expand to, what
their expansions do, and the frame the standard prologue builds. -/

namespace Sys2Proof.Machine

/-! ### The literals the macros accept (rules R96, R97) -/

theorem checkedLiteral_some {lit : Int} (h : -32768 ≤ lit ∧ lit ≤ 32767) : checkedLiteral lit = some lit :=
  if_pos ((fitsLiteral_iff lit).mpr h)

theorem checkedLiteral_none {lit : Int} (h : ¬ (-32768 ≤ lit ∧ lit ≤ 32767)) : checkedLiteral lit = none :=
  if_neg (mt (fitsLiteral_iff lit).mp h)

/-- An absolute address fits a literal in the bottom and the top 32 KiB (rule R96). -/
theorem toInt_fits_iff (a : Word) :
    (-32768 ≤ a.toInt ∧ a.toInt ≤ 32767) ↔ a.toNat ≤ 0x7FFF ∨ 0xFFFF8000 ≤ a.toNat := by
  have := a.isLt
  rw [BitVec.toInt_eq_toNat_cond]
  split <;> omega

/-- Settles O7: an expansion with a literal is there just when its literal is accepted, the others always are. -/
theorem macrosExpandAsTheTable : Obligations.MacrosExpandAsTheTable := by
  intro here ra rc label
  refine ⟨?reached, ?unreached, rfl, rfl, rfl, rfl, fun c => ⟨?constant, ?noConstant⟩, fun k => ⟨?slots, ?noSlots⟩,
    fun a => ⟨?address, ?noAddress⟩⟩
  case reached =>
    intro lit hlit
    simp only [expand, hlit, Option.map_some, and_self]
  case unreached =>
    intro hlit
    simp only [expand, hlit, Option.map_none, and_self]
  case constant =>
    intro hc
    simp only [expand, checkedLiteral_some hc, Option.map_some]
  case noConstant =>
    intro hc
    simp only [expand, checkedLiteral_none hc, Option.map_none]
  case slots =>
    intro hk
    have hfits : checkedLiteral (4 * k) = some (4 * k : Int) := checkedLiteral_some (by omega)
    simp only [expand, hfits, Option.map_some, and_self]
  case noSlots =>
    intro hk
    have hrefused : checkedLiteral (4 * k) = none := checkedLiteral_none (by omega)
    simp only [expand, hrefused, Option.map_none, and_self]
  case address =>
    intro ha
    have hfits : checkedLiteral a.toInt = some a.toInt := checkedLiteral_some ((toInt_fits_iff a).mpr ha)
    simp only [expand, literalOfAddress, hfits, Option.map_some, and_self]
  case noAddress =>
    intro ha
    have hout : ¬ (a.toNat ≤ 0x7FFF ∨ 0xFFFF8000 ≤ a.toNat) := by omega
    have hrefused : checkedLiteral a.toInt = none := checkedLiteral_none (mt (toInt_fits_iff a).mp hout)
    simp only [expand, literalOfAddress, hrefused, Option.map_none, and_self]

/-! ### Instructions one after another -/

theorem execAll_cons {i : Instr} {s t : State} (h : exec i s = .next t) (is : List Instr) :
    execAll (i :: is) s = execAll is t := by
  rw [execAll, h]

theorem execAll_singleton {i : Instr} {s t : State} (h : exec i s = .next t) : execAll [i] s = .next t :=
  execAll_cons h []

theorem execAll_pair {i j : Instr} {s t u : State} (h : exec i s = .next t) (h' : exec j t = .next u) :
    execAll [i, j] s = .next u :=
  (execAll_cons h [j]).trans (execAll_singleton h')

/-- A piece of code that completes, and what follows it. -/
theorem execAll_append {is : List Instr} {s t : State} (h : execAll is s = .next t) (js : List Instr) :
    execAll (is ++ js) s = execAll js t := by
  induction is generalizing s with
  | nil =>
    obtain rfl : s = t := Host.Outcome.next.inj h
    rfl
  | cons i is ih =>
    cases hi : exec i s with
    | next u =>
      rw [execAll_cons hi] at h
      rw [List.cons_append, execAll_cons hi, ih h]
    | fault f => rw [execAll, hi] at h; cases h
    | refused r => rw [execAll, hi] at h; cases h

/-! ### The instructions the macros expand to -/

theorem exec_add_writesOnly (ra rb rc : Reg) (s : State) :
    ∃ t, exec (.add ra rb rc) s = .next t ∧ WritesOnly s t rc (s.reg ra + s.reg rb) (nextPc s.pc) :=
  operate_writesOnly (· + ·) ra rb rc s

theorem exec_addc_writesOnly (ra : Reg) (lit : Int) (rc : Reg) (s : State) :
    ∃ t, exec (.addc ra lit rc) s = .next t ∧ WritesOnly s t rc (s.reg ra + sext32 lit) (nextPc s.pc) :=
  operateLiteral_writesOnly (· + ·) ra lit rc s

theorem exec_subc_writesOnly (ra : Reg) (lit : Int) (rc : Reg) (s : State) :
    ∃ t, exec (.subc ra lit rc) s = .next t ∧ WritesOnly s t rc (s.reg ra - sext32 lit) (nextPc s.pc) :=
  operateLiteral_writesOnly (· - ·) ra lit rc s

/-- MOVE(Ra, Rc): register 31 adds nothing (rule R249). -/
theorem exec_move_writesOnly (ra rc : Reg) (s : State) :
    ∃ t, exec (.add ra r31 rc) s = .next t ∧ WritesOnly s t rc (s.reg ra) (nextPc s.pc) := by
  have h := exec_add_writesOnly ra r31 rc s
  rwa [reg_r31, BitVec.add_zero] at h

/-- CMOVE(c, Rc): the constant is added to zero (rule R250). -/
theorem exec_cmove_writesOnly (lit : Int) (rc : Reg) (s : State) :
    ∃ t, exec (.addc r31 lit rc) s = .next t ∧ WritesOnly s t rc (sext32 lit) (nextPc s.pc) := by
  have h := exec_addc_writesOnly r31 lit rc s
  rwa [reg_r31, BitVec.zero_add] at h

/-- BR(label, Rc): register 31 is zero, so the branch is taken (rule R244). -/
theorem exec_br_writesOnly (lit : Int) (rc : Reg) (s : State) :
    ∃ t, exec (.beq r31 lit rc) s = .next t ∧ WritesOnly s t rc (nextPc s.pc) (relTarget (nextPc s.pc) lit) :=
  linkAndGo_writesOnly rc (relTarget (nextPc s.pc) lit) s

/-- Settles O54: each of the three expansions is one instruction, with register 31 as a zero operand. -/
theorem moveCmoveAndBrEffects : Obligations.MoveCmoveAndBrEffects := by
  intro s ra rc lit
  obtain ⟨t, ht, hmove⟩ := exec_move_writesOnly ra rc s
  obtain ⟨u, hu, hcmove⟩ := exec_cmove_writesOnly lit rc s
  obtain ⟨v, hv, hbr⟩ := exec_br_writesOnly lit rc s
  exact ⟨⟨t, execAll_singleton ht, hmove⟩, ⟨u, execAll_singleton hu, hcmove⟩, ⟨v, execAll_singleton hv, hbr⟩⟩

/-! ### PUSH and POP (rules R251, R252, R255) -/

/-- A word is read the same where its four bytes and the byte order are the same. -/
theorem readWord_congr {s t : State} {x : Word} (horder : t.platform = s.platform)
    (hbytes : ∀ k, k < 4 → readByte t.mem (x.toNat + k) = readByte s.mem (x.toNat + k)) :
    t.readWord x = s.readWord x := by
  have h0 := hbytes 0 (by omega)
  rw [Nat.add_zero] at h0
  rw [State.readWord, State.readWord, Machine.readWord, Machine.readWord, horder, h0, hbytes 1 (by omega),
    hbytes 2 (by omega), hbytes 3 (by omega)]

/-- From `s` to `t`, the value `v` was pushed: it is the word at the old SP, SP is 4 higher, and every other register, every
other byte and the platform are as before. -/
structure Pushes (s t : State) (v : Word) : Prop where
  stackPointer : t.reg sp = s.reg sp + 4#32
  stored : t.readWord (s.reg sp) = v
  others : ∀ r, r ≠ sp → t.reg r = s.reg r
  memory : ∀ x, ¬ ((s.reg sp).toNat ≤ x ∧ x < (s.reg sp).toNat + 4) → readByte t.mem x = readByte s.mem x
  canonical : t.mem.wf = true
  platform : t.platform = s.platform

/-- The slot PUSH filled is the top of the stack (rule R255). -/
theorem Pushes.stackTop {s t : State} {v : Word} (h : Pushes s t v) : stackTopAddress t = s.reg sp := by
  rw [stackTopAddress, h.stackPointer, BitVec.add_sub_cancel]

/-- A push changes no word outside its slot. -/
theorem Pushes.readWord_other {s t : State} {v x : Word} (h : Pushes s t v)
    (hx : x.toNat + 4 ≤ (s.reg sp).toNat ∨ (s.reg sp).toNat + 4 ≤ x.toNat) : t.readWord x = s.readWord x :=
  readWord_congr h.platform fun k hk => h.memory _ (by omega)

theorem sext32_neg (lit : Int) : sext32 (-lit) = -sext32 lit := BitVec.ofInt_neg

/-- The displacement -4 that PUSH and POP write is four back. -/
theorem effectiveAddress_neg_four (base : Word) : effectiveAddress base (-4) = base - 4#32 := by
  rw [effectiveAddress, sext32_neg, ← BitVec.sub_eq_add_neg]
  rfl

/-- Every instruction keeps the canonical form of memory. -/
theorem exec_mem_wf {i : Instr} {s t : State} (hmem : s.mem.wf = true) (h : exec i s = .next t) : t.mem.wf = true := by
  obtain ⟨rc, v, pc, -, -, rfl⟩ | ⟨rc, lit, ra, a, -, ha, rfl⟩ | ⟨-, rfl⟩ := exec_next h
  · rw [setPc_mem, setReg_mem]
    exact hmem
  · obtain ⟨-, hregion⟩ := dataAddress_ok ha
    exact writeWord_wf _ _ _ _ (wordInRegion_lt _ _ hregion) hmem
  · rw [takeException_mem]
    exact hmem

theorem exec_st_of_address {s : State} {ra : Reg} {lit : Int} {a : Word}
    (h : dataAddress s.platform (effectiveAddress (s.reg ra) lit) = .ok a) (rc : Reg) :
    exec (.st rc lit ra) s = .next (s.writeWord a (s.reg rc)).advance := by
  change storeTo _ _ s = _
  rw [h, storeTo]

theorem exec_ld_writesOnly {s : State} {ra : Reg} {lit : Int} {a : Word}
    (h : dataAddress s.platform (effectiveAddress (s.reg ra) lit) = .ok a) (rc : Reg) :
    ∃ t, exec (.ld ra lit rc) s = .next t ∧ WritesOnly s t rc (s.readWord a) (nextPc s.pc) :=
  loadFrom_writesOnly h rc s

/-- LD and ST with base SP and displacement -4 access the top of the stack (rule R255). -/
theorem dataAddress_stackTop {s : State} (haligned : (stackTopAddress s).toNat % 4 = 0)
    (hregion : wordInRegion s.platform (stackTopAddress s) = true) :
    dataAddress s.platform (effectiveAddress (s.reg sp) (-4)) = .ok (stackTopAddress s) := by
  rw [effectiveAddress_neg_four]
  exact dataAddress_aligned ((isAligned_iff _).mpr haligned) hregion

/-- PUSH completes where SP is a word address in `MEM_REGION`, and pushes Ra, the raised SP for Ra = SP (rule R251). -/
theorem execAll_push {s : State} (hmem : s.mem.wf = true) (haligned : (s.reg sp).toNat % 4 = 0)
    (hregion : wordInRegion s.platform (s.reg sp) = true) (ra : Reg) :
    ∃ t, execAll [.addc sp 4 sp, .st ra (-4) sp] s = .next t ∧
      Pushes s t (if ra = sp then s.reg sp + 4#32 else s.reg ra) := by
  obtain ⟨u, hraise, hwrites⟩ := exec_addc_writesOnly sp 4 sp s
  have hsp : u.reg sp = s.reg sp + 4#32 := hwrites.destination
  have hplatform : u.platform = s.platform := hwrites.surroundings.platform
  have htop : stackTopAddress u = s.reg sp := by rw [stackTopAddress, hsp, BitVec.add_sub_cancel]
  have hregion' : wordInRegion u.platform (s.reg sp) = true := hplatform ▸ hregion
  have hvalue : u.reg ra = if ra = sp then s.reg sp + 4#32 else s.reg ra := by
    split
    next h => rw [h, hsp]
    next h => exact hwrites.others ra h
  have hstore := exec_st_of_address (dataAddress_stackTop (htop.symm ▸ haligned) (htop.symm ▸ hregion')) ra
  rw [htop] at hstore
  refine ⟨_, execAll_pair hraise hstore, {
    stackPointer := hsp
    stored := (readWord_of_writeWord_advance (exec_mem_wf hmem hraise) hregion' _).trans hvalue
    others := hwrites.others
    memory := fun x hx => ?memory
    canonical := exec_mem_wf (exec_mem_wf hmem hraise) hstore
    platform := hplatform }⟩
  rw [advance_mem, writeWord_mem, readByte_writeWord_other _ _ _ _ _ hx, hwrites.memory x]

/-- Settles O52, from what PUSH does. -/
theorem pushStoresAndRaisesStackPointer : Obligations.PushStoresAndRaisesStackPointer := by
  intro s ra hmem haligned hregion
  obtain ⟨t, ht, hpush⟩ := execAll_push hmem haligned hregion ra
  exact ⟨t, ht, hpush.stackPointer, hpush.stackTop, hpush.stored, hpush.others, hpush.memory⟩

/-- From `s` to `t`, the top of the stack was popped into `rc`, not SP (register 31 discards it): SP is 4 lower, and every other
register and every byte is as before. -/
structure Pops (s t : State) (rc : Reg) : Prop where
  stackPointer : t.reg sp = s.reg sp - 4#32
  destination : t.reg rc = if rc = r31 then 0#32 else s.readWord (stackTopAddress s)
  others : ∀ r, r ≠ sp → r ≠ rc → t.reg r = s.reg r
  memory : SameMemory s t

/-- POP into another register than SP completes where the top of the stack is a word address in `MEM_REGION` (rule R252). -/
theorem execAll_pop {s : State} (haligned : (stackTopAddress s).toNat % 4 = 0)
    (hregion : wordInRegion s.platform (stackTopAddress s) = true) {rc : Reg} (hrc : rc ≠ sp) :
    ∃ t, execAll [.ld sp (-4) rc, .subc sp 4 sp] s = .next t ∧ Pops s t rc := by
  obtain ⟨u, hload, hloads⟩ := exec_ld_writesOnly (dataAddress_stackTop haligned hregion) rc
  obtain ⟨t, hlower, hlowers⟩ := exec_subc_writesOnly sp 4 sp u
  have hsp : t.reg sp = u.reg sp - 4#32 := hlowers.destination
  refine ⟨t, execAll_pair hload hlower, ?stackPointer, ?destination, ?others, ?memory⟩
  case stackPointer => rw [hsp, hloads.others sp hrc.symm]
  case destination => rw [hlowers.others rc hrc, hloads.destination]
  case others =>
    intro r hsp hr
    rw [hlowers.others r hsp, hloads.others r hr]
  case memory =>
    intro x
    rw [hlowers.memory x, hloads.memory x]

/-- Settles O53: POP reads the slot PUSH filled and takes back the four bytes SP was raised by. -/
theorem popReturnsWhatPushStored : Obligations.PopReturnsWhatPushStored := by
  intro s ra rc hmem haligned hregion hra hrc hrc31
  obtain ⟨u, hpushed, hpush⟩ := execAll_push hmem haligned hregion ra
  have htop : stackTopAddress u = s.reg sp := hpush.stackTop
  obtain ⟨t, hpopped, hpop⟩ := execAll_pop (s := u) (by rw [htop, haligned]) (by rw [htop, hpush.platform, hregion]) hrc
  have hsp : t.reg sp = s.reg sp := by rw [hpop.stackPointer, hpush.stackPointer, BitVec.add_sub_cancel]
  refine ⟨t, (execAll_append hpushed _).trans hpopped, ?value, hsp, ?registers, ?memory⟩
  case value => rw [hpop.destination, if_neg hrc31, htop, hpush.stored, if_neg hra]
  case registers =>
    intro r hr
    by_cases h : r = sp
    · rw [h, hsp]
    · rw [hpop.others r h hr, hpush.others r h]
  case memory =>
    intro x hx
    rw [hpop.memory x, hpush.memory x hx]

/-! ### The standard prologue (rules R258, R260, R262) -/

theorem sext32_natCast (n : Nat) : sext32 n = BitVec.ofNat 32 n := BitVec.ofInt_natCast ..

/-- A word address and the next one, also where that is address 0, share no byte. -/
theorem next_word_disjoint {a : Word} (haligned : a.toNat % 4 = 0) :
    (a + 4#32).toNat % 4 = 0 ∧ (a.toNat + 4 ≤ (a + 4#32).toNat ∨ (a + 4#32).toNat + 4 ≤ a.toNat) := by
  rw [BitVec.toNat_add]
  have : (4#32).toNat = 4 := rfl
  omega

/-- After two pushes, of `v` and of `w`, `v` is the word at the old SP, `w` the next one, and SP is 8 higher. -/
theorem Pushes.twice {s t u : State} {v w : Word} (h : Pushes s t v) (h' : Pushes t u w)
    (haligned : (s.reg sp).toNat % 4 = 0) :
    u.reg sp = s.reg sp + 8#32 ∧ u.readWord (s.reg sp) = v ∧ u.readWord (s.reg sp + 4#32) = w ∧
      (∀ r, r ≠ sp → u.reg r = s.reg r) ∧
      ∀ x, ¬ ((s.reg sp).toNat ≤ x ∧ x < (s.reg sp).toNat + 4) →
        ¬ ((s.reg sp + 4#32).toNat ≤ x ∧ x < (s.reg sp + 4#32).toNat + 4) → readByte u.mem x = readByte s.mem x := by
  obtain ⟨-, hdisjoint⟩ := next_word_disjoint haligned
  have hsp : t.reg sp = s.reg sp + 4#32 := h.stackPointer
  refine ⟨?stackPointer, ?first, ?second, ?registers, ?memory⟩
  case stackPointer => rw [h'.stackPointer, hsp, BitVec.add_assoc]; rfl
  case first => rw [h'.readWord_other (hsp ▸ hdisjoint), h.stored]
  case second => rw [← hsp, h'.stored]
  case registers =>
    intro r hr
    rw [h'.others r hr, h.others r hr]
  case memory =>
    intro x hx hx'
    rw [h'.memory x (hsp ▸ hx'), h.memory x hx]

/-- The first four instructions of the prologue save LP and BP (rule R260). -/
theorem execAll_saveLinkage {s : State} (hmem : s.mem.wf = true) (haligned : (s.reg sp).toNat % 4 = 0)
    (hregion : wordInRegion s.platform (s.reg sp) = true) (hregion' : wordInRegion s.platform (s.reg sp + 4#32) = true) :
    ∃ t u, execAll [.addc sp 4 sp, .st lp (-4) sp, .addc sp 4 sp, .st bp (-4) sp] s = .next u ∧
      Pushes s t (s.reg lp) ∧ Pushes t u (s.reg bp) := by
  obtain ⟨t, ht, hpush⟩ := execAll_push hmem haligned hregion lp
  obtain ⟨haligned', -⟩ := next_word_disjoint haligned
  rw [← hpush.stackPointer] at haligned' hregion'
  obtain ⟨u, hu, hpush'⟩ := execAll_push hpush.canonical haligned' (by rw [hpush.platform, hregion']) bp
  rw [if_neg (by decide)] at hpush
  rw [if_neg (by decide), hpush.others bp (by decide)] at hpush'
  exact ⟨t, u, (execAll_append ht _).trans hu, hpush, hpush'⟩

/-- The last two instructions of the prologue set BP and leave room for `k` locals (rule R260). -/
theorem execAll_openFrame (s : State) (k : Nat) :
    ∃ t, execAll [.add sp r31 bp, .addc sp (4 * k) sp] s = .next t ∧ t.reg bp = s.reg sp ∧ t.reg sp = localAddress t k ∧
      (∀ r, r ≠ sp → r ≠ bp → t.reg r = s.reg r) ∧ SameMemory s t ∧ t.platform = s.platform := by
  obtain ⟨u, hmove, hmoves⟩ := exec_move_writesOnly sp bp s
  obtain ⟨t, hallocate, hallocates⟩ := exec_addc_writesOnly sp (4 * k) sp u
  have hbp : t.reg bp = s.reg sp := (hallocates.others bp (by decide)).trans hmoves.destination
  refine ⟨t, execAll_pair hmove hallocate, hbp, ?stackPointer, ?registers, ?memory, ?platform⟩
  case stackPointer =>
    have hroom : sext32 (4 * k) = BitVec.ofNat 32 (4 * k) := by rw [← sext32_natCast, Nat.cast_mul]; rfl
    rw [localAddress, hbp, ← hroom, ← hmoves.others sp (by decide)]
    exact hallocates.destination
  case registers =>
    intro r hsp hr
    rw [hallocates.others r hsp, hmoves.others r hr]
  case memory =>
    intro x
    rw [hallocates.memory x, hmoves.memory x]
  case platform => rw [hallocates.surroundings.platform, hmoves.surroundings.platform]

/-- Settles O55: two pushes fill the two words below the new BP, and opening the frame writes no memory. -/
theorem prologueBuildsTheFrame : Obligations.PrologueBuildsTheFrame := by
  intro s k _ hmem haligned hregion hregion'
  obtain ⟨v, u, hsave, hlp, hbp⟩ := execAll_saveLinkage hmem haligned hregion hregion'
  obtain ⟨hsp, hsavedLp, hsavedBp, hregs, hbytes⟩ := hlp.twice hbp haligned
  obtain ⟨t, hopen, hbase, htop, hregs', hbytes', hplatform⟩ := execAll_openFrame u k
  have hframe : t.reg bp = s.reg sp + 8#32 := hbase.trans hsp
  have hread (a : Word) : t.readWord a = u.readWord a := readWord_congr hplatform fun _ _ => hbytes' _
  refine ⟨t, (execAll_append hsave _).trans hopen, hframe, htop, ?savedBp, ?savedLp, ?arguments, ?registers, ?memory⟩
  case savedBp =>
    have haddress : savedBpAddress t = s.reg sp + 4#32 := by rw [savedBpAddress, hframe, add_sub_assoc]; rfl
    rw [haddress, hread, hsavedBp]
  case savedLp =>
    have haddress : savedLpAddress t = s.reg sp := by rw [savedLpAddress, hframe, BitVec.add_sub_cancel]
    rw [haddress, hread, hsavedLp]
  case arguments =>
    intro i
    have hfirst : s.reg sp + 8#32 - 12#32 = s.reg sp - 4#32 := by rw [add_sub_assoc, sub_eq_add_neg (s.reg sp)]; rfl
    rw [argumentAddress, argumentAddressAtEntry, hframe, hfirst]
  case registers =>
    intro r hr hr'
    rw [hregs' r hr hr', hregs r hr]
  case memory =>
    intro x hx hx'
    rw [hbytes' x, hbytes x hx hx']

end Sys2Proof.Machine
end

section
/-! PROOFS. The statements of exceptions (rules R280 to R299): which instruction a step runs, when an interrupt is taken, what
is pending after a step, what changes the mode, and the return from a handler. -/

namespace Sys2Proof.Machine

/-! ### The instruction a step runs (rules R25, R80, R299) -/

/-- Settles O32: with no reset and no interrupt in its way the step is the fetch, and what the environment leaves differs from
`s` in `pending` and `inputs` alone. -/
theorem stepRunsTheDecodedInstruction : Obligations.StepRunsTheDecodedInstruction := by
  intro s i hreset hint hregion hdecode hcanonical
  obtain ⟨hwf, -⟩ := encodeOfDecodeKeepsUsedBits _ i hdecode
  exact ⟨hwf, step_instruction hreset (interruptVector_none hint) hregion hdecode hcanonical,
    rfl, rfl, rfl, rfl, rfl, rfl⟩

/-- The bytes of a word in the spec's byte order decode to what the word decodes to (rule R52). -/
theorem decodeTableWord_of_decode {w : Word} {i : Instr} (h : decode w = .ok i) :
    decodeTableWord 32 w.toNat = some i := by
  have hword : BitVec.ofNat 32 (w.toNat % 2 ^ 32) = w := by
    rw [Nat.mod_eq_of_lt w.isLt, BitVec.ofNat_toNat, BitVec.setWidth_eq]
  simp only [decodeTableWord, hword, List.map_cons, List.map_nil, decodeBytes, wordOfBytes_byteOfWord, h, Except.map]

theorem withFetchWord_toNat (s : State) (w : Word) : s.withFetchWord 32 w.toNat = placeWord s w := by
  rw [State.withFetchWord, Nat.mod_eq_of_lt w.isLt, BitVec.ofNat_toNat, BitVec.setWidth_eq]

/-- With no input left the environment withdraws nothing and raises nothing. -/
theorem updatePending_idle (p : Platform) (ks : List Nat) : updatePending p {} ks = ks :=
  List.filter_eq_self.mpr fun _ _ => rfl

theorem afterEnvironment_of_no_inputs {s : State} (h : s.inputs = []) : s.afterEnvironment = s := by
  have hinput : s.input = {} := by rw [State.input, h]; rfl
  rw [State.afterEnvironment, hinput, updatePending_idle, h, List.tail_nil, ← h]

/-- Settles O33: the placed word is read back at the fetch address, and the placing leaves the environment idle. -/
theorem placedWordIsTheOneExecuted : Obligations.PlacedWordIsTheOneExecuted := by
  intro s w i hmem hregion hcanonical hdecode
  rw [withFetchWord_toNat]
  have hinputs : (placeWord s w).inputs = [] := placeWord_inputs s w
  have hinput : (placeWord s w).input = {} := by rw [State.input, hinputs]; rfl
  have hfetched : (placeWord s w).readWord (fetchAddress (placeWord s w).pc) = w :=
    readWord_of_writeWord hmem hregion w
  refine ⟨decodeTableWord_of_decode hdecode, ?_, ?_⟩
  · refine step_instruction ?_ ?_ hregion ?_ ?_
    · rw [hinput]
    · rw [hinput]; rfl
    · rw [hfetched]; exact hdecode
    · rw [hfetched]; exact hcanonical
  · rw [afterEnvironment_of_no_inputs hinputs]
    rfl

/-! ### Interrupts (rules R286 to R290) -/

/-- A chosen kind that is pending and has a vector is taken in user mode (rule R287). -/
theorem interruptVector_user {s : State} {k : Nat} (huser : s.isSupervisor = false) (hpending : k ∈ s.pending) :
    interruptVector (some k) s = s.platform.irqVectors[k]? := by
  simp [interruptVector, huser, hpending]

/-- Settles O38: a kind with a vector is a kind of `IRQ_KINDS`, so it is pending once the environment has acted, and entering
the exception keeps `pending`. -/
theorem chosenPendingInterruptIsTakenInUserMode : Obligations.ChosenPendingInterruptIsTakenInUserMode := by
  intro s k vec hreset huser htake hvec hkind
  obtain ⟨hexists, -⟩ := List.getElem?_eq_some_iff.mp hvec
  have hpending : k ∈ s.afterEnvironment.pending :=
    (mem_updatePending ..).mpr (hkind.imp (fun hraised => ⟨hraised, hexists⟩) id)
  have htaken : interruptVector s.input.take s.afterEnvironment = some vec := by
    rw [htake]
    exact (interruptVector_user (s := s.afterEnvironment) huser hpending).trans hvec
  refine ⟨_, step_interrupt hreset htaken, takeException_enters vec s.afterEnvironment, ?_⟩
  rw [takeException_pending]
  exact hpending

/-- In supervisor mode the step does not look at the choice (rule R286). -/
theorem nextEvent_supervisor {s : State} (h : s.isSupervisor = true) (e : EnvInput) :
    nextEvent e s = if e.reset then .reset else fetchEvent s := by
  rw [nextEvent, interruptVector_supervisor h]

/-- Settles O39: what the environment leaves does not depend on the choice, and neither does what follows in supervisor
mode. -/
theorem noInterruptIsTakenInSupervisorMode : Obligations.NoInterruptIsTakenInSupervisorMode := by
  intro s e rest hsupervisor hinputs
  have hinput : s.input = e := by rw [State.input, hinputs]; rfl
  have hsame : ({ s with inputs := { e with take := none } :: rest } : State).afterEnvironment = s.afterEnvironment := by
    simp only [State.afterEnvironment, hinput, hinputs]
    rfl
  have hevent : nextEvent s.input s.afterEnvironment = nextEvent { e with take := none } s.afterEnvironment := by
    rw [nextEvent_supervisor (s := s.afterEnvironment) hsupervisor,
      nextEvent_supervisor (s := s.afterEnvironment) hsupervisor, hinput]
  unfold step
  rw [hsame, hevent]
  rfl

/-- No instruction changes what is pending (rules R34, R288). -/
theorem exec_pending {i : Instr} {s t : State} (h : exec i s = .next t) : t.pending = s.pending := by
  obtain ⟨rc, v, pc, -, -, rfl⟩ | ⟨rc, lit, ra, a, -, -, rfl⟩ | ⟨-, rfl⟩ := exec_next h
  · rw [setPc_pending, setReg_pending]
  · rw [advance_pending, writeWord_pending]
  · rw [takeException_pending]

/-- A step leaves pending what the environment left (rule R288). -/
theorem step_pending {s t : State} (h : step s = .next t) : t.pending = s.afterEnvironment.pending := by
  obtain ⟨-, rfl⟩ | ⟨-, -, k, vec, -, -, -, rfl⟩ | ⟨-, -, -, ⟨i, -, hi⟩ | ⟨e, -, -, rfl⟩⟩ := step_next h
  · exact reassertReset_pending _
  · exact takeException_pending _ _
  · exact exec_pending hi
  · exact takeException_pending _ _

/-- Settles O40: what is pending after the step is what the environment left, which its input tells. -/
theorem pendingSetBelongsToTheEnvironment : Obligations.PendingSetBelongsToTheEnvironment := by
  intro s t h k
  rw [step_pending h]
  exact mem_updatePending ..

/-! ### The mode (rules R281, R282) -/

theorem takeException_isSupervisor (vec : Word) (s : State) : (takeException vec s).isSupervisor = true :=
  vectorPc_supervisor vec

theorem reassertReset_isSupervisor (s : State) : (reassertReset s).isSupervisor = true := by
  rw [State.isSupervisor, reassertReset_pc]
  decide

/-- What an instruction does to the mode: nothing, unless it is a JMP, which can clear the Supervisor bit, or takes the illegal
instruction exception (rule R282). -/
theorem exec_isSupervisor {i : Instr} {s t : State} (h : exec i s = .next t) :
    t.isSupervisor = s.isSupervisor ∨
    (∃ ra rc, i = .jmp ra rc ∧ t.isSupervisor = (s.isSupervisor && (s.reg ra).getLsbD 31)) ∨
    (s.isSupervisor = false ∧ t = takeException s.platform.vecIllop s) := by
  obtain ⟨rc, v, pc, -, hpc, rfl⟩ | ⟨rc, lit, ra, a, -, -, rfl⟩ | hexception := exec_next h
  · exact (nextPcOf_supervisor hpc).imp id .inl
  · exact .inl (nextPc_supervisor s.pc)
  · exact .inr (.inr hexception)

/-- From user to supervisor mode an instruction comes by the illegal instruction exception only. -/
theorem exec_enters_supervisor {i : Instr} {s t : State} (h : exec i s = .next t) (hs : s.isSupervisor = false)
    (ht : t.isSupervisor = true) : t = takeException s.platform.vecIllop s := by
  obtain hsame | ⟨ra, rc, -, hjump⟩ | ⟨-, hexception⟩ := exec_isSupervisor h
  · rw [hsame, hs] at ht; cases ht
  · rw [hjump, hs] at ht; cases ht
  · exact hexception

/-- From supervisor to user mode an instruction comes only as a JMP to a register with bit 31 clear. -/
theorem exec_leaves_supervisor {i : Instr} {s t : State} (h : exec i s = .next t) (hs : s.isSupervisor = true)
    (ht : t.isSupervisor = false) : ∃ ra rc, i = .jmp ra rc ∧ (s.reg ra).getLsbD 31 = false := by
  obtain hsame | ⟨ra, rc, hi, hjump⟩ | ⟨huser, -⟩ := exec_isSupervisor h
  · rw [hsame, hs] at ht; cases ht
  · rw [hjump, hs, Bool.true_and] at ht
    exact ⟨ra, rc, hi, ht⟩
  · rw [hs] at huser; cases huser

/-- Settles O41: of what a step can do, reset and exception entry set the Supervisor bit, and a JMP alone clears it. -/
theorem modeChangesOnlyByExceptionsAndJmp : Obligations.ModeChangesOnlyByExceptionsAndJmp := by
  obtain ⟨-, hstart, -⟩ := resetLeavesPcAndSupervisorMode
  refine ⟨hstart, ?enters, ?leaves⟩
  case enters =>
    intro s t h hs ht
    obtain ⟨hreset, -⟩ | ⟨-, -, k, vec, -, -, hvec, rfl⟩ | ⟨-, -, -, ⟨i, -, hi⟩ | ⟨e, -, -, rfl⟩⟩ := step_next h
    · exact .inl hreset
    · exact .inr ⟨vec, .inr (List.mem_of_getElem? hvec), takeException_enters vec _⟩
    · rw [exec_enters_supervisor hi hs ht]
      exact .inr ⟨_, .inl rfl, takeException_enters _ _⟩
    · exact .inr ⟨_, .inl rfl, takeException_enters _ _⟩
  case leaves =>
    intro s t h hs ht
    obtain ⟨-, rfl⟩ | ⟨-, huser, -⟩ | ⟨hreset, -, -, ⟨i, hdecode, hi⟩ | ⟨e, -, huser, -⟩⟩ := step_next h
    · rw [reassertReset_isSupervisor] at ht; cases ht
    · rw [hs] at huser; cases huser
    · obtain ⟨ra, rc, rfl, hbit⟩ := exec_leaves_supervisor hi hs ht
      exact ⟨hreset, ra, rc, hdecode, hbit⟩
    · rw [hs] at huser; cases huser

/-! ### Return from a handler (rules R291, R294) -/

/-- JMP(Ra) jumps and writes no register (rule R246). -/
theorem exec_jmp_r31 (ra : Reg) (s : State) : exec (.jmp ra r31) s = .next (s.setPc (jumpPc s.pc (s.reg ra))) := rfl

/-- From supervisor mode a jump to a word address goes to that address, in the mode its bit 31 says (rule R212). -/
theorem jumpPc_of_supervisor {p t : Word} (hp : p.getLsbD 31 = true) (ht : t.toNat % 4 = 0) : jumpPc p t = t := by
  apply BitVec.eq_of_toNat_eq
  rw [jumpPc_toNat]
  simp only [hp, true_and]
  split <;> omega

/-- The handler's JMP(XP), in supervisor mode with a word address in XP, resumes there, in the mode its bit 31 says, and changes
nothing that the handler kept of the interrupted `s`. -/
theorem exec_jmp_xp_returns {s u : State} {target : Word} (hsupervisor : u.isSupervisor = true)
    (htarget : u.reg xp = target) (haligned : target.toNat % 4 = 0) (hregisters : ∀ r, r ≠ xp → u.reg r = s.reg r)
    (hmemory : SameMemory s u) :
    ∃ t, exec (.jmp xp r31) u = .next t ∧ t.pc = target ∧ t.isSupervisor = target.getLsbD 31 ∧
      (∀ r, r ≠ xp → t.reg r = s.reg r) ∧ SameMemory s t := by
  refine ⟨u.setPc target, ?_, rfl, rfl, hregisters, hmemory⟩
  rw [exec_jmp_r31, htarget, jumpPc_of_supervisor hsupervisor haligned]

theorem user_iff (p : Word) : p.getLsbD 31 = false ↔ p.toNat < 2 ^ 31 := by
  rw [← Bool.not_eq_true, supervisor_iff, not_le]

/-- Four below the updated PC of user mode is the PC, but at the last word of the low half, whose updated PC wraps to 0
(rule R26). -/
theorem nextPc_sub_four {p : Word} (huser : p.getLsbD 31 = false) (haligned : p.toNat % 4 = 0) :
    nextPc p - sext32 4 = if p.toNat = 2 ^ 31 - 4 then 0xFFFFFFFC#32 else p := by
  have hlow : p.toNat < 2 ^ 31 := (user_iff p).mp huser
  have hnext := nextPc_toNat p
  have hback := sub_sext32_toNat (nextPc p) 4
  apply BitVec.eq_of_toNat_eq
  split
  next hlast =>
    have hwrapped : (0xFFFFFFFC#32).toNat = 2 ^ 32 - 4 := rfl
    omega
  next hbelow => omega

/-- The address the handler computes of the instruction that was not executed has bit 31 set at the last word of the low half
alone. -/
theorem returnAddress_isSupervisor {p : Word} (huser : p.getLsbD 31 = false) (haligned : p.toNat % 4 = 0) :
    (nextPc p - sext32 4).getLsbD 31 = decide (p.toNat = 2 ^ 31 - 4) := by
  rw [nextPc_sub_four huser haligned]
  split
  next h => rw [decide_eq_true h]; decide
  next h => rw [decide_eq_false h, huser]

theorem returnAddress_aligned {p : Word} (huser : p.getLsbD 31 = false) (haligned : p.toNat % 4 = 0) :
    (nextPc p - sext32 4).toNat % 4 = 0 := by
  rw [nextPc_sub_four huser haligned]
  split
  · decide
  · exact haligned

/-- Settles O46: entry leaves the updated PC in XP, and the handler returns to it or to four below it; neither of its two
instructions writes another register or memory. -/
theorem handlerReturnsToUserProgram : Obligations.HandlerReturnsToUserProgram := by
  intro s vec huser haligned
  have entry := takeException_enters vec s
  have hsupervisor : (takeException vec s).isSupervisor = true := takeException_isSupervisor vec s
  constructor
  case left =>
    have hword : (nextPc s.pc).toNat % 4 = 0 := (isAligned_iff _).mp (nextPc_aligned ((isAligned_iff _).mpr haligned))
    obtain ⟨t, hjump, hpc, hmode, hframe⟩ :=
      exec_jmp_xp_returns hsupervisor entry.exceptionPointer hword entry.others entry.memory
    exact ⟨t, hjump, hpc, by rw [hmode, nextPc_supervisor]; exact huser, hframe⟩
  case right =>
    obtain ⟨u, hsub, hwrites⟩ := exec_subc_writesOnly xp 4 xp (takeException vec s)
    have hmode : u.isSupervisor = true := by
      rw [State.isSupervisor, hwrites.pc, nextPc_supervisor]
      exact hsupervisor
    have htarget : u.reg xp = nextPc s.pc - sext32 4 := by
      rw [hwrites.destination, if_neg (by decide), entry.exceptionPointer]
    obtain ⟨t, hjump, hpc, hmode', hframe⟩ :=
      exec_jmp_xp_returns hmode htarget (returnAddress_aligned huser haligned)
        (fun r hr => (hwrites.others r hr).trans (entry.others r hr)) (fun x => (hwrites.memory x).trans (entry.memory x))
    refine ⟨t, execAll_pair hsub hjump, fun hne => ?_, by rw [hmode', returnAddress_isSupervisor huser haligned], hframe⟩
    rw [hpc, nextPc_sub_four huser haligned, if_neg hne]

end Sys2Proof.Machine
end

section
/-! PROOFS. The statements of reset and of the end of a run (rules R320 to R331): what an asserted reset leaves, and the branch
to itself. -/

namespace Sys2Proof.Machine

/-- Settles O48: reset is looked at before interrupts and the fetch, and writes neither memory nor the platform. -/
theorem assertedResetRestartsAndKeepsMemory : Obligations.AssertedResetRestartsAndKeepsMemory := by
  intro s hreset
  refine ⟨_, step_reset hreset, reassertReset_pc _, reassertReset_isSupervisor _, reg_r31 _, fun x => ?_,
    reassertReset_platform _⟩
  rw [reassertReset_mem, afterEnvironment_mem]

/-! ### The branch to itself (rule R331) -/

/-- What the end of a run by a branch to itself says. -/
theorem ended_selfBranch_iff (s : State) :
    ended .selfBranch s = true ↔ s.isSupervisor = true ∧ wordInRegion s.platform (fetchAddress s.pc) = true ∧
      s.readWord (fetchAddress s.pc) = selfBranchWord := by
  simp [ended, and_assoc]

theorem decode_selfBranchWord : decode selfBranchWord = .ok (.beq r31 (-1) r31) := by decide

/-- The word is canonical, so no platform refuses it (rule R91). -/
theorem encode_selfBranch : encode (.beq r31 (-1) r31) = selfBranchWord := by decide

/-- One word back from the updated PC is the PC, also where both wrap (rules R26, R27). -/
theorem relTarget_nextPc_neg_one (p : Word) : relTarget (nextPc p) (-1) = p := by
  have hnext := nextPc_toNat p
  have htarget := relTarget_toNat (nextPc p) (-1)
  apply BitVec.eq_of_toNat_eq
  omega

/-- BEQ(R31, ., R31) changes nothing: R31 is zero, the target is the branch, and the link is discarded. -/
theorem exec_selfBranch (s : State) : exec (.beq r31 (-1) r31) s = .next s := by
  change Host.Outcome.next ((s.setReg r31 (nextPc s.pc)).setPc (relTarget (nextPc s.pc) (-1))) = .next s
  rw [setReg_r31, relTarget_nextPc_neg_one]
  rfl

/-- Settles O56: in supervisor mode no interrupt is taken, so the step runs the branch, which changes nothing. -/
theorem selfBranchInSupervisorModeEndsTheRun : Obligations.SelfBranchInSupervisorModeEndsTheRun := by
  intro s hended hreset
  obtain ⟨hsupervisor, hregion, hword⟩ := (ended_selfBranch_iff s).mp hended
  have hrun : step s = exec (.beq r31 (-1) r31) s.afterEnvironment :=
    step_instruction hreset (interruptVector_none (.inl hsupervisor)) hregion
      (by rw [hword, decode_selfBranchWord]) (.inr (.inr (by rw [hword, encode_selfBranch])))
  refine ⟨hrun.trans (exec_selfBranch _), (ended_selfBranch_iff _).mpr ?_⟩
  exact ⟨hsupervisor, hregion, hword⟩

end Sys2Proof.Machine
end
